-- ==== Sys2Proof/Word.lean ====
section
/-! DEFINITION. The word of the machine. Rule R5: XLEN = ALEN = 16, one memory word is 16 bits,
an address is a 16-bit word index. Arithmetic on `Word` is BitVec arithmetic, modulo 2^16 (rule R6). -/

namespace Sys2Proof

/-- A register, a memory word, an instruction, a word address: 16 bits (rules R5, R6). -/
abbrev Word := BitVec 16

/-- Half a memory word, used only where the memory list and a program image hold bytes (log entry 1). -/
abbrev Byte := BitVec 8

end Sys2Proof
end

