-- ==== Sys2Proof/Syntax.lean ====
section
/-! DEFINITION. The instruction set as syntax: registers by name (rule R11), the sixteen opcode
names (rule R62), and one constructor of `Instr` per row of spec/opcode_table.json. -/

namespace Sys2Proof

/-- The general registers R0..R7, by name (rules R10, R11: "never by raw integer outside the decoder"). -/
inductive Reg
  | r0 | r1 | r2 | r3 | r4 | r5 | r6 | r7
deriving DecidableEq, Repr

/-- The sixteen opcode names (rule R62). Which number each takes is an `OpcodeMap` (decision D3). -/
inductive Opcode
  | br | add | ld | st | jsr | and | ldr | str | rti | not | ldi | sti | jmp | res | lea | trap
deriving DecidableEq, Repr

/-- The decoder's verdict on an instruction word (rules R69, R101): one constructor per row of the
opcode table. Immediates and offsets are the 16-bit values the decoder puts out, already
sign-extended (rules R26, R60, R61), the trap vector zero-extended (rule R101). -/
inductive Instr
  /-- ADD, format OPR-R (rules R57, R82). -/
  | addR (dst src1 src2 : Reg)
  /-- ADD, format OPR-I (rules R57, R82). -/
  | addI (dst src1 : Reg) (imm5 : Word)
  /-- AND, format OPR-R (rules R57, R83). -/
  | andR (dst src1 src2 : Reg)
  /-- AND, format OPR-I (rules R57, R83). -/
  | andI (dst src1 : Reg) (imm5 : Word)
  /-- BR with its three test bits (rules R58, R88). -/
  | br (n z p : Bool) (offset9 : Word)
  /-- JMP (rules R59, R89). -/
  | jmp (baseR : Reg)
  /-- LD, format PC9 (rules R101, R102). -/
  | ld (dst : Reg) (pcOffset9 : Word)
  /-- ST, format PC9 (rules R101, R103). -/
  | st (src : Reg) (pcOffset9 : Word)
  /-- JSR, IR[11] = 1 (rules R101, R104). -/
  | jsr (pcOffset11 : Word)
  /-- JSRR, IR[11] = 0 (rules R101, R104). -/
  | jsrr (baseR : Reg)
  /-- LDR, format BASE6 (rules R101, R105). -/
  | ldr (dst baseR : Reg) (offset6 : Word)
  /-- STR, format BASE6 (rules R101, R106). -/
  | str (src baseR : Reg) (offset6 : Word)
  /-- NOT (rules R101, R107). -/
  | notR (dst src : Reg)
  /-- LDI, format PC9 (rules R101, R108). -/
  | ldi (dst : Reg) (pcOffset9 : Word)
  /-- STI, format PC9 (rules R101, R109). -/
  | sti (src : Reg) (pcOffset9 : Word)
  /-- LEA, format PC9 (rules R101, R110). -/
  | lea (dst : Reg) (pcOffset9 : Word)
  /-- TRAP (rules R101, R111). -/
  | trap (trapvect8 : Word)
  /-- RTI: unsupported under both settings of FULL_ISA (rule R112). -/
  | rti
  /-- RES, the reserved opcode: unsupported under both settings (rule R112). -/
  | res
deriving DecidableEq, Repr

/-- The opcode an instruction is written with. JSR and JSRR share one (rule R62). -/
def Instr.opcode : Instr → Opcode
  | .addR _ _ _ => .add
  | .addI _ _ _ => .add
  | .andR _ _ _ => .and
  | .andI _ _ _ => .and
  | .br _ _ _ _ => .br
  | .jmp _ => .jmp
  | .ld _ _ => .ld
  | .st _ _ => .st
  | .jsr _ => .jsr
  | .jsrr _ => .jsr
  | .ldr _ _ _ => .ldr
  | .str _ _ _ => .str
  | .notR _ _ => .not
  | .ldi _ _ => .ldi
  | .sti _ _ => .sti
  | .lea _ _ => .lea
  | .trap _ => .trap
  | .rti => .rti
  | .res => .res

end Sys2Proof
end

