-- ==== Sys2Proof/Config.lean ====
section
/-! DEFINITION. The configuration arguments of the hardware (rule R5; 92_eei_decisions.md D3, D4, D5,
D10, D15, D17; 93_implementation_defined.md I4 to I10). Every one the spec calls OPEN is a field here.
A configuration is plain data; `State` carries one, no step changes it, and so a statement about every
state is a statement about every configuration (log entry 2). Its default stands in
Machine/Defaults.lean. The spec leaves no value free, so there is no free value here. -/

namespace Sys2Proof

/-- The two settings of `COND_RESET` (decision D4): COND after reset is NONE or ZRO. -/
inductive CondReset
  | none | zro
deriving DecidableEq, Repr

/-- `OPCODE_MAP` (decision D3): the name each of the sixteen values of IR[15:12] has. Total, so there
is no default fall-through (rule R73). -/
abbrev OpcodeMap := Vector Opcode 16

/-- The parameters of one machine, fixed for a run (rule R5). -/
structure Config where
  /-- `ORIGIN`, the address reset puts in PC (rules R23, R142; D5). -/
  origin : Word
  /-- `COND_RESET` (rules R16, R95; D4). -/
  condReset : CondReset
  /-- `OPCODE_MAP` (rule R62; D3). -/
  opcodeMap : OpcodeMap
  /-- `FULL_ISA`: the annex's opcodes have handlers (rule R100; D10). -/
  fullIsa : Bool
  /-- `LEA_SETS_FLAGS` (rule R110; D15). -/
  leaSetsFlags : Bool
  /-- `HALT_TRAPVECT`, the trap vector that halts (rule R111; D17). -/
  haltTrapvect : Byte
deriving DecidableEq, Repr

end Sys2Proof
end

