-- ==== Sys2Proof/WellFormed.lean ====
section
/-! DEFINITION. Which terms of `Instr` an encoding can hold: an immediate or offset lies in the signed
range of its field (rules R60, R61, R101), a trap vector in 0..255. Every value of a register or a test
bit is legal (rules R11, R65). Also when an opcode map gives every opcode a number. -/

namespace Sys2Proof

/-- `v`, read as two's complement, lies in the signed range of an `n`-bit field. -/
def fitsSigned (n : Nat) (v : Word) : Bool :=
  decide (-(2 : Int) ^ (n - 1) ≤ v.toInt) && decide (v.toInt < (2 : Int) ^ (n - 1))

/-- `v` lies in the range of an unsigned `n`-bit field. -/
def fitsUnsigned (n : Nat) (v : Word) : Bool :=
  decide (v.toNat < 2 ^ n)

/-- The instruction has an encoding. -/
def Instr.wf : Instr → Bool
  | .addR _ _ _ => true
  | .addI _ _ imm5 => fitsSigned 5 imm5
  | .andR _ _ _ => true
  | .andI _ _ imm5 => fitsSigned 5 imm5
  | .br _ _ _ offset9 => fitsSigned 9 offset9
  | .jmp _ => true
  | .ld _ off => fitsSigned 9 off
  | .st _ off => fitsSigned 9 off
  | .jsr off => fitsSigned 11 off
  | .jsrr _ => true
  | .ldr _ _ off => fitsSigned 6 off
  | .str _ _ off => fitsSigned 6 off
  | .notR _ _ => true
  | .ldi _ off => fitsSigned 9 off
  | .sti _ off => fitsSigned 9 off
  | .lea _ off => fitsSigned 9 off
  | .trap v => fitsUnsigned 8 v
  | .rti => true
  | .res => true

/-- The sixteen opcode names, in the order of rule R62's table. -/
def Opcode.all : List Opcode :=
  [.br, .add, .ld, .st, .jsr, .and, .ldr, .str] ++ [.rti, .not, .ldi, .sti, .jmp, .res, .lea, .trap]

/-- The map gives every opcode a number: sixteen names on sixteen values, each exactly once. -/
def OpcodeMap.wf (m : OpcodeMap) : Bool :=
  Opcode.all.all fun o => m.toList.contains o

end Sys2Proof
end

