-- ==== Sys2Proof/Decode.lean ====
section
/-! DEFINITION. The instruction decoder (rules R26, R55 to R69, R101), total on the 2^16 words, and the
encoder written from the same encoding tables. Bit-field, sign-extension and byte-order helpers. -/

namespace Sys2Proof

/-! ## Sign extension -/

/-- `sext_N(v)` (rule R7): for `v` in the low `n` bits, OR in all ones above bit n-1 if that bit is set. -/
def sext (n : Nat) (v : Word) : Word :=
  if v.getLsbD (n - 1) then v ||| (0xFFFF#16 &&& ~~~((1#16 <<< n) - 1#16)) else v

/-! ## Register numbers -/

/-- The register a 3-bit field names (rule R11). -/
def Reg.ofBits (b : BitVec 3) : Reg :=
  match b.toNat with
  | 0 => .r0
  | 1 => .r1
  | 2 => .r2
  | 3 => .r3
  | 4 => .r4
  | 5 => .r5
  | 6 => .r6
  | _ => .r7

/-- The 3-bit number of a register. -/
def Reg.bits : Reg → BitVec 3
  | .r0 => 0
  | .r1 => 1
  | .r2 => 2
  | .r3 => 3
  | .r4 => 4
  | .r5 => 5
  | .r6 => 6
  | .r7 => 7

/-! ## The opcode table -/

/-- The conventional assignment of rule R62, the default of `OPCODE_MAP` (decision D3): the one table
a correction would change (log entry 3). -/
def conventionalOpcodes : OpcodeMap :=
  #v[.br, .add, .ld, .st, .jsr, .and, .ldr, .str, .rti, .not, .ldi, .sti, .jmp, .res, .lea, .trap]

/-- The opcode that the value of IR[15:12] names. -/
def OpcodeMap.lookup (m : OpcodeMap) (b : BitVec 4) : Opcode :=
  m[b.toFin]

/-- The number of an opcode: the first value the map gives that name. -/
def OpcodeMap.number (m : OpcodeMap) (o : Opcode) : BitVec 4 :=
  BitVec.ofNat 4 (m.toList.idxOf o)

/-! ## Fields of the instruction word (rules R26, R57 to R61, R101) -/

/-- `IR[15:12]`. -/
def Field.opcode (w : Word) : BitVec 4 := w.extractLsb 15 12
/-- `dst = IR[11:9]`, also the annex's DR or SR. -/
def Field.dst (w : Word) : Reg := Reg.ofBits (w.extractLsb 11 9)
/-- `src1 = baseR = IR[8:6]`. -/
def Field.src1 (w : Word) : Reg := Reg.ofBits (w.extractLsb 8 6)
/-- `mode = IR[5]`. -/
def Field.mode (w : Word) : Bool := w.getLsbD 5
/-- `src2 = IR[2:0]`. -/
def Field.src2 (w : Word) : Reg := Reg.ofBits (w.extractLsb 2 0)
/-- `imm5 = sext_5(IR[4:0])` (rule R60). -/
def Field.imm5 (w : Word) : Word := sext 5 ((w.extractLsb 4 0).setWidth 16)
/-- BR's test bit N = IR[11]. -/
def Field.n (w : Word) : Bool := w.getLsbD 11
/-- BR's test bit Z = IR[10]. -/
def Field.z (w : Word) : Bool := w.getLsbD 10
/-- BR's test bit P = IR[9]. -/
def Field.p (w : Word) : Bool := w.getLsbD 9
/-- `offset9 = PCoffset9 = sext_9(IR[8:0])` (rules R61, R101). -/
def Field.offset9 (w : Word) : Word := sext 9 ((w.extractLsb 8 0).setWidth 16)
/-- `offset6 = sext_6(IR[5:0])` (rule R101). -/
def Field.offset6 (w : Word) : Word := sext 6 ((w.extractLsb 5 0).setWidth 16)
/-- IR[11] of opcode 0x4: JSR if set, JSRR if not (rule R101). -/
def Field.long (w : Word) : Bool := w.getLsbD 11
/-- `PCoffset11 = sext_11(IR[10:0])` (rule R101). -/
def Field.pcOffset11 (w : Word) : Word := sext 11 ((w.extractLsb 10 0).setWidth 16)
/-- `trapvect8 = zext_16(IR[7:0])` (rule R101). -/
def Field.trapvect8 (w : Word) : Word := (w.extractLsb 7 0).setWidth 16

/-! ## The decoder -/

/-- The verdict on a word (rules R69, R101): a pure function of the word and the opcode map. It is
total. A word whose opcode has no handler in the configuration in force still gets its row's name here;
that it raises UnsupportedOpcode is its meaning (rules R65, R120), never a fall-through. -/
def decode (m : OpcodeMap) (w : Word) : Instr :=
  match m.lookup (Field.opcode w) with
  | .br => .br (Field.n w) (Field.z w) (Field.p w) (Field.offset9 w)
  | .add =>
    if Field.mode w then .addI (Field.dst w) (Field.src1 w) (Field.imm5 w)
    else .addR (Field.dst w) (Field.src1 w) (Field.src2 w)
  | .ld => .ld (Field.dst w) (Field.offset9 w)
  | .st => .st (Field.dst w) (Field.offset9 w)
  | .jsr => if Field.long w then .jsr (Field.pcOffset11 w) else .jsrr (Field.src1 w)
  | .and =>
    if Field.mode w then .andI (Field.dst w) (Field.src1 w) (Field.imm5 w)
    else .andR (Field.dst w) (Field.src1 w) (Field.src2 w)
  | .ldr => .ldr (Field.dst w) (Field.src1 w) (Field.offset6 w)
  | .str => .str (Field.dst w) (Field.src1 w) (Field.offset6 w)
  | .rti => .rti
  | .not => .notR (Field.dst w) (Field.src1 w)
  | .ldi => .ldi (Field.dst w) (Field.offset9 w)
  | .sti => .sti (Field.dst w) (Field.offset9 w)
  | .jmp => .jmp (Field.src1 w)
  | .res => .res
  | .lea => .lea (Field.dst w) (Field.offset9 w)
  | .trap => .trap (Field.trapvect8 w)

/-! ## The encoder -/

/-- A field of an instruction word, its lowest bit at bit `lo`. -/
def place (lo : Nat) {n : Nat} (f : BitVec n) : Word := f.setWidth 16 <<< lo

/-- The word of a well-formed instruction, from the format tables of rules R57 to R59 and R101. Bits the
formats leave unused are written 0, but NOT's [5:0], written 1 as rule R101's "conventionally 111111"
says (log entry 4). -/
def encode (m : OpcodeMap) : Instr → Word
  | .addR dst src1 src2 =>
    place 12 (m.number .add) ||| place 9 dst.bits ||| place 6 src1.bits ||| place 0 src2.bits
  | .addI dst src1 imm5 =>
    place 12 (m.number .add) ||| place 9 dst.bits ||| place 6 src1.bits ||| place 5 1#1 ||| place 0 (imm5.setWidth 5)
  | .andR dst src1 src2 =>
    place 12 (m.number .and) ||| place 9 dst.bits ||| place 6 src1.bits ||| place 0 src2.bits
  | .andI dst src1 imm5 =>
    place 12 (m.number .and) ||| place 9 dst.bits ||| place 6 src1.bits ||| place 5 1#1 ||| place 0 (imm5.setWidth 5)
  | .br n z p offset9 =>
    place 12 (m.number .br) ||| place 11 (BitVec.ofBool n) ||| place 10 (BitVec.ofBool z) |||
      place 9 (BitVec.ofBool p) ||| place 0 (offset9.setWidth 9)
  | .jmp baseR => place 12 (m.number .jmp) ||| place 6 baseR.bits
  | .ld dst off => place 12 (m.number .ld) ||| place 9 dst.bits ||| place 0 (off.setWidth 9)
  | .st src off => place 12 (m.number .st) ||| place 9 src.bits ||| place 0 (off.setWidth 9)
  | .jsr off => place 12 (m.number .jsr) ||| place 11 1#1 ||| place 0 (off.setWidth 11)
  | .jsrr baseR => place 12 (m.number .jsr) ||| place 6 baseR.bits
  | .ldr dst baseR off =>
    place 12 (m.number .ldr) ||| place 9 dst.bits ||| place 6 baseR.bits ||| place 0 (off.setWidth 6)
  | .str src baseR off =>
    place 12 (m.number .str) ||| place 9 src.bits ||| place 6 baseR.bits ||| place 0 (off.setWidth 6)
  | .notR dst src => place 12 (m.number .not) ||| place 9 dst.bits ||| place 6 src.bits ||| place 0 0x3F#6
  | .ldi dst off => place 12 (m.number .ldi) ||| place 9 dst.bits ||| place 0 (off.setWidth 9)
  | .sti src off => place 12 (m.number .sti) ||| place 9 src.bits ||| place 0 (off.setWidth 9)
  | .lea dst off => place 12 (m.number .lea) ||| place 9 dst.bits ||| place 0 (off.setWidth 9)
  | .trap v => place 12 (m.number .trap) ||| place 0 (v.setWidth 8)
  | .rti => place 12 (m.number .rti)
  | .res => place 12 (m.number .res)

/-- The bits of a word that its instruction reads, the opcode among them: a one wherever the pattern of
rules R57 to R59 and R101 has no `x`. -/
def Instr.usedBits : Instr → Word
  | .addR _ _ _ => 0xFFE7
  | .addI _ _ _ => 0xFFFF
  | .andR _ _ _ => 0xFFE7
  | .andI _ _ _ => 0xFFFF
  | .br _ _ _ _ => 0xFFFF
  | .jmp _ => 0xF1C0
  | .ld _ _ => 0xFFFF
  | .st _ _ => 0xFFFF
  | .jsr _ => 0xFFFF
  | .jsrr _ => 0xF9C0
  | .ldr _ _ _ => 0xFFFF
  | .str _ _ _ => 0xFFFF
  | .notR _ _ => 0xFFC0
  | .ldi _ _ => 0xFFFF
  | .sti _ _ => 0xFFFF
  | .lea _ _ => 0xFFFF
  | .trap _ => 0xF0FF
  | .rti => 0xF000
  | .res => 0xF000

/-! ## Words as bytes, and the form the host asks for -/

/-- A word from its two bytes, the high byte first (rule R40, decision D7; log entry 1). -/
def wordOfBytes (hi lo : Byte) : Word := hi ++ lo

/-- The bytes of a word, the high byte first (rule R40). -/
def bytesOfWord (w : Word) : List Byte := [w.extractLsb' 8 8, w.extractLsb' 0 8]

/-- Why a byte string is no instruction. -/
inductive DecodeError
  /-- Fewer than two bytes are left: an instruction is one whole word (rule R55). -/
  | truncated
deriving DecidableEq, Repr

/-- The instruction at the head of a byte string (the high byte of each word first) and the bytes
after it. -/
def decodeBytes (m : OpcodeMap) : List Byte → Except DecodeError (Instr × List Byte)
  | hi :: lo :: rest => .ok (decode m (wordOfBytes hi lo), rest)
  | [_] => .error .truncated
  | [] => .error .truncated

/-- The one word of a table row: bit k of `w` is bit k of the word for k below `nbits`, and 0 above. -/
def tableWord (nbits w : Nat) : Word := BitVec.ofNat 16 (w % 2 ^ nbits)

/-- The instruction the decoder reads from an instruction's bits as spec/opcode_table.json numbers them,
under the default opcode map. No instruction is longer than one word (rule R55). -/
def decodeTableWord (nbits w : Nat) : Option Instr :=
  if nbits ≤ 16 then
    match decodeBytes conventionalOpcodes (bytesOfWord (tableWord nbits w)) with
    | .ok (i, _) => some i
    | .error _ => none
  else none

end Sys2Proof
end

