-- ==== Sys2Proof/Machine/Defaults.lean ====
section
/-! DEFINITION. The default value of every configuration parameter (rule R5), one definition each, so
that a correction of a default changes one place. -/

namespace Sys2Proof.Machine

/-- `ORIGIN` = 0x3000 (rule R5, decision D5). -/
def defaultOrigin : Word := 0x3000

/-- `COND_RESET` = NONE, by the zero fill (rule R5, decision D4). -/
def defaultCondReset : CondReset := .none

/-- `FULL_ISA` = false, the document's machine (rule R5, decision D10). -/
def defaultFullIsa : Bool := false

/-- `LEA_SETS_FLAGS` = true (rule R5, decision D15). -/
def defaultLeaSetsFlags : Bool := true

/-- `HALT_TRAPVECT` = 0x25 (rule R5, decision D17). -/
def defaultHaltTrapvect : Byte := 0x25

/-- The configuration with every parameter at its default. -/
def defaultConfig : Config where
  origin := defaultOrigin
  condReset := defaultCondReset
  opcodeMap := conventionalOpcodes
  fullIsa := defaultFullIsa
  leaSetsFlags := defaultLeaSetsFlags
  haltTrapvect := defaultHaltTrapvect

end Sys2Proof.Machine
end

