-- ==== Sys2Proof/Machine/State.lean ====
section
/-! DEFINITION. The state of the machine, all of it and as plain data (rules R10, R13, R16, R18 to R23),
the reasons a step could stop, and the state after reset. -/

namespace Sys2Proof.Machine

/-- The eight general registers (rule R10): no banks, no aliases, none hard-wired. -/
structure RegFile where
  r0 : Word
  r1 : Word
  r2 : Word
  r3 : Word
  r4 : Word
  r5 : Word
  r6 : Word
  r7 : Word
deriving DecidableEq, Repr

/-- COND (rule R16): "not an independent bitmask of simultaneous flags", so one of four names. Its
16-bit one-hot value is `Cond.code` in Flags.lean. -/
inductive Cond
  | none | pos | zro | neg
deriving DecidableEq, Repr

/-- The run state of the execution loop (rule R18). -/
inductive RunState
  | running | halted
deriving DecidableEq, Repr

/-- The halt-cause register (rule R19). Its number is `HaltCause.code` in Ops.lean. -/
inductive HaltCause
  | none | unsupportedOpcode | haltTrap
deriving DecidableEq, Repr

/-- The 65536 words of memory (rules R21, R35), as the list of their bytes that are not 0: word `a` is
the bytes at 2a (high) and 2a+1 (low), addresses strictly rising (log entry 1). The operations and the
canonical form `Memory.wf` are in Ops.lean. -/
abbrev Memory := List Host.Cell

/-- Everything the spec gives the machine (rule R22 says there is nothing else). -/
structure State where
  /-- R0..R7 (rule R10). -/
  regs : RegFile
  /-- PC, a word address (rule R13). -/
  pc : Word
  /-- COND (rule R16). -/
  cond : Cond
  /-- The run state (rule R18). -/
  runState : RunState
  /-- `halt_cause` (rule R19). -/
  haltCause : HaltCause
  /-- IR, the word of the last fetch (rule R20). -/
  ir : Word
  /-- Memory (rules R21, R35). -/
  mem : Memory
  /-- Whether a step has been taken since reset: rule R33 opens the host access port "between reset and
  its first step". Not a register; no instruction reads or writes it (log entry 5). -/
  started : Bool
  /-- The parameters of this machine (rule R5), which no step changes (log entry 2). -/
  cfg : Config
deriving DecidableEq, Repr

/-- A stop with a fault: there is none. Rule R122: "No other exception exists"; memory accesses never
fail (rule R37); the one exception, UnsupportedOpcode, ends in the architected HALTED state, a next
state (rule R120; 93_implementation_defined.md I1). Nothing raises a fault. Safe: nothing rests on it. -/
inductive Fault
deriving DecidableEq, Repr

/-- A stop for want of a meaning. -/
inductive Refusal
  /-- Raised by an arm of `exec` for an instruction that has no meaning yet, with its mnemonic. No arm
  raises it now. Safe: nothing is claimed of such a step. -/
  | notModelled (mnemonic : String)
deriving DecidableEq, Repr

/-- COND after reset under a setting of `COND_RESET` (rule R23, decision D4). -/
def condAtReset : CondReset → Cond
  | .none => .none
  | .zro => .zro

/-- The state that reset leaves in a machine with parameters `c` (rules R23, R140). Memory lists
nothing, and an unlisted byte reads 0. -/
def State.resetWith (c : Config) : State where
  regs := { r0 := 0, r1 := 0, r2 := 0, r3 := 0, r4 := 0, r5 := 0, r6 := 0, r7 := 0 }
  pc := c.origin
  cond := condAtReset c.condReset
  runState := .running
  haltCause := .none
  ir := 0
  mem := []
  started := false
  cfg := c

/-- The machine right after reset, with every parameter at its default (rules R5, R23). -/
def State.reset : State := State.resetWith defaultConfig

end Sys2Proof.Machine
end

