-- ==== Sys2Proof/Machine/Ops.lean ====
section
/-! DEFINITION. The named operations over memory and registers, halting, the one exception, and fetch. -/

namespace Sys2Proof.Machine

/-! ## Memory (rules R35 to R38)

The list holds bytes; the machine sees words only, through `Memory.readWord` and `Memory.writeWord`. -/

/-- What a byte that the list does not name reads as: memory is zero at reset (rule R23). -/
def Memory.unlisted : Byte := 0

/-- One past the highest byte key: two bytes for each of the 65536 words (rule R35). -/
def Memory.size : Nat := 131072

/-- The byte at key `a`. -/
def Memory.readByte : Memory → Nat → Byte
  | [], _ => Memory.unlisted
  | (k, b) :: rest, a => if k = a then b else Memory.readByte rest a

/-- The list with `b` at key `a` put before `rest`, or without the key if `b` is what an unlisted key
reads as. -/
def Memory.put (a : Nat) (b : Byte) (rest : Memory) : Memory :=
  if b = Memory.unlisted then rest else (a, b) :: rest

/-- The memory with byte `b` at key `a`, in canonical form. -/
def Memory.writeByte : Memory → Nat → Byte → Memory
  | [], a, b => Memory.put a b []
  | (k, v) :: rest, a, b =>
    if a < k then Memory.put a b ((k, v) :: rest)
    else if a = k then Memory.put a b rest
    else (k, v) :: Memory.writeByte rest a b

/-- The key of the high byte of the word at address `a`; the low byte's is one more (log entry 1). -/
def Memory.key (a : Word) : Nat := 2 * a.toNat

/-- `MemRead(addr, 1)` (rule R38). -/
def Memory.readWord (m : Memory) (a : Word) : Word :=
  wordOfBytes (m.readByte (Memory.key a)) (m.readByte (Memory.key a + 1))

/-- `MemWrite(addr, 1, v)` (rule R38): replaces all 16 bits. -/
def Memory.writeWord (m : Memory) (a : Word) (v : Word) : Memory :=
  (m.writeByte (Memory.key a) (v.extractLsb' 8 8)).writeByte (Memory.key a + 1) (v.extractLsb' 0 8)

/-- Keys from `lo` up, strictly rising and below `Memory.size`, and no entry equal to what an unlisted
key reads as. -/
def Memory.wfFrom (lo : Nat) : Memory → Bool
  | [] => true
  | (k, b) :: rest =>
    decide (lo ≤ k) && decide (k < Memory.size) && decide (b ≠ Memory.unlisted) && Memory.wfFrom (k + 1) rest

/-- The canonical form of a memory: two memories in it that read alike are the same list. -/
def Memory.wf (m : Memory) : Bool := Memory.wfFrom 0 m

/-! ## Registers (rules R8, R10) -/

/-- The register of that name. -/
def RegFile.get (f : RegFile) : Reg → Word
  | .r0 => f.r0
  | .r1 => f.r1
  | .r2 => f.r2
  | .r3 => f.r3
  | .r4 => f.r4
  | .r5 => f.r5
  | .r6 => f.r6
  | .r7 => f.r7

/-- The register file with `v` in the register of that name. -/
def RegFile.set (f : RegFile) (r : Reg) (v : Word) : RegFile :=
  match r with
  | .r0 => { f with r0 := v }
  | .r1 => { f with r1 := v }
  | .r2 => { f with r2 := v }
  | .r3 => { f with r3 := v }
  | .r4 => { f with r4 := v }
  | .r5 => { f with r5 := v }
  | .r6 => { f with r6 := v }
  | .r7 => { f with r7 := v }

/-! ## The primitives of rule R8 on the state -/

/-- `x[r]`. -/
def State.reg (s : State) (r : Reg) : Word := s.regs.get r

/-- `x[r] <- v`. -/
def State.setReg (s : State) (r : Reg) (v : Word) : State := { s with regs := s.regs.set r v }

/-- `pc <- target`. -/
def State.setPc (s : State) (target : Word) : State := { s with pc := target }

/-- `cond <- f`; only the condition-flag updater calls it (rule R17). -/
def State.setCond (s : State) (f : Cond) : State := { s with cond := f }

/-- `MemRead(addr, 1)`, through the load_store_unit (rule R31): never fails (rule R37). -/
def State.memRead (s : State) (a : Word) : Word := s.mem.readWord a

/-- `MemWrite(addr, 1, v)`: never fails (rule R37). -/
def State.memWrite (s : State) (a v : Word) : State := { s with mem := s.mem.writeWord a v }

/-- `halt(cause)` (rules R8, R18, R19). -/
def State.halt (s : State) (cause : HaltCause) : State :=
  { s with runState := .halted, haltCause := cause }

/-- The number of a halt cause (rule R19). -/
def HaltCause.code : HaltCause → Nat
  | .none => 0
  | .unsupportedOpcode => 1
  | .haltTrap => 2

/-! ## The one exception (rules R120, R125)

There is no return from it: HALTED is terminal and only a reset leaves it (rule R126); the reset
request is in HostPort.lean. Its diagnostic event is an output, in Output.lean (rule R121). -/

/-- `raise UnsupportedOpcode`: no save register, no vector, no mode; the machine stops, with IR holding
the word and PC already past it. -/
def raiseUnsupportedOpcode (s : State) : State := s.halt .unsupportedOpcode

/-- Whether an opcode has a handler in the configuration in force (rules R62, R65, R120). -/
def hasHandler (c : Config) : Opcode → Bool
  | .br => true
  | .add => true
  | .and => true
  | .jmp => true
  | .ld => c.fullIsa
  | .st => c.fullIsa
  | .jsr => c.fullIsa
  | .ldr => c.fullIsa
  | .str => c.fullIsa
  | .not => c.fullIsa
  | .ldi => c.fullIsa
  | .sti => c.fullIsa
  | .lea => c.fullIsa
  | .trap => c.fullIsa
  | .rti => false
  | .res => false

/-- The dispatch of an opcode (rules R73, R100): its handler's effect, or the explicit unsupported
path. -/
def dispatch (o : Opcode) (s effect : State) : State :=
  if hasHandler s.cfg o then effect else raiseUnsupportedOpcode s

/-! ## Fetch (rule R71) -/

/-- `IR <- MemRead(pc, 1); pc <- pc + 1`, and the step is the first since reset no longer. -/
def State.fetch (s : State) : State :=
  { s with ir := s.memRead s.pc, pc := s.pc + 1, started := true }

/-- The decoder's verdict on IR (rule R72). -/
def State.decoded (s : State) : Instr := decode s.cfg.opcodeMap s.ir

end Sys2Proof.Machine
end

