-- ==== Sys2Proof/Machine/Flags.lean ====
section
/-! DEFINITION. The condition_flag_updater (rules R16, R29, R80, R81) and the test of BR (rule R88). -/

namespace Sys2Proof.Machine

/-- The flag of a value (rule R80). -/
def condOf (v : Word) : Cond :=
  if v = 0#16 then .zro else if v.getLsbD 15 then .neg else .pos

/-- `update_flags(v)` (rule R80). -/
def State.updateFlags (s : State) (v : Word) : State := s.setCond (condOf v)

/-- The one-hot value of COND (rule R16, decision D4). -/
def Cond.code : Cond → Word
  | .none => 0x0000
  | .pos => 0x0001
  | .zro => 0x0002
  | .neg => 0x0004

/-- BR's requested set `IR[11:9]`: N at bit 2, Z at bit 1, P at bit 0 (rule R88). -/
def requested (n z p : Bool) : BitVec 3 := BitVec.ofBool n ++ BitVec.ofBool z ++ BitVec.ofBool p

/-- Whether a BR is taken (rule R88): `(requested & cond[2:0]) != 000`, an intersection, not an
equality. -/
def branchTaken (n z p : Bool) (c : Cond) : Bool :=
  (requested n z p &&& c.code.extractLsb 2 0) != 0#3

end Sys2Proof.Machine
end

