-- ==== Sys2Proof/Machine/Operands.lean ====
section
/-! DEFINITION. The operand forms and the alu_with_flags (rules R26 to R31, R61, R101). During execute
PC already holds A + 1 (rule R13), so a PC-relative form adds to the PC of the state as it is. -/

namespace Sys2Proof.Machine

/-- A PC-relative target or address: `pc + offset` modulo 2^16 (rules R36, R61, R92). -/
def State.pcRelative (s : State) (offset : Word) : Word := s.pc + offset

/-- A base-plus-offset address: `x[baseR] + offset6` modulo 2^16 (rules R36, R105). -/
def State.basePlus (s : State) (baseR : Reg) (offset : Word) : Word := s.reg baseR + offset

/-- An indirect address: the word at a PC-relative address (rules R108, R109). -/
def State.pointerAt (s : State) (offset : Word) : Word := s.memRead (s.pcRelative offset)

/-- The operations of the alu_with_flags (rules R28, R87). -/
inductive AluOp
  | add | and | not | pass
deriving DecidableEq, Repr

/-- The result of an operation (rules R28, R84); NOT and PASS read only the first operand. -/
def alu (op : AluOp) (a b : Word) : Word :=
  match op with
  | .add => a + b
  | .and => a &&& b
  | .not => ~~~a
  | .pass => a

/-- `x[dst] <- v; update_flags(v)`: the updater runs "unconditionally, immediately after the
destination register is written", with the value written (rule R81). -/
def State.writeResult (s : State) (dst : Reg) (v : Word) : State := (s.setReg dst v).updateFlags v

end Sys2Proof.Machine
end

