-- ==== Sys2Proof/Machine/Control.lean ====
section
/-! DEFINITION. The meanings of the control transfers: BR and JMP (rules R88, R89), JSR, JSRR and TRAP
of the annex (rules R104, R111). -/

namespace Sys2Proof.Machine

/-- BR (rule R88). -/
def execBr (n z p : Bool) (offset9 : Word) (s : State) : Host.Outcome State Fault Refusal :=
  .next (if branchTaken n z p s.cond then s.setPc (s.pcRelative offset9) else s)

/-- JMP (rule R89). -/
def execJmp (baseR : Reg) (s : State) : Host.Outcome State Fault Refusal :=
  .next (s.setPc (s.reg baseR))

/-- JSR (rule R104): the link is the PC before the jump. -/
def execJsr (pcOffset11 : Word) (s : State) : Host.Outcome State Fault Refusal :=
  .next (dispatch .jsr s ((s.setPc (s.pcRelative pcOffset11)).setReg .r7 s.pc))

/-- JSRR (rule R104): the base is read before R7 is written (decision D16). -/
def execJsrr (baseR : Reg) (s : State) : Host.Outcome State Fault Refusal :=
  .next (dispatch .jsr s ((s.setPc (s.reg baseR)).setReg .r7 s.pc))

/-- TRAP's effect once R7 holds the return address: halt on `HALT_TRAPVECT`, else jump through the
vector table (rule R111). -/
def State.trapThrough (s : State) (trapvect8 : Word) : State :=
  if trapvect8 = s.cfg.haltTrapvect.setWidth 16 then s.halt .haltTrap
  else s.setPc (s.memRead trapvect8)

/-- TRAP (rule R111): `x[7] <- pc`, then halt or jump. -/
def execTrap (trapvect8 : Word) (s : State) : Host.Outcome State Fault Refusal :=
  .next (dispatch .trap s ((s.setReg .r7 s.pc).trapThrough trapvect8))

end Sys2Proof.Machine
end

