-- ==== Sys2Proof/Machine/LoadStore.lean ====
section
/-! DEFINITION. The meanings of the annex's loads, stores and LEA (rules R102, R103, R105, R106, R108 to
R110). -/

namespace Sys2Proof.Machine

/-- LD (rule R102). -/
def execLd (dst : Reg) (pcOffset9 : Word) (s : State) : Host.Outcome State Fault Refusal :=
  .next (dispatch .ld s (s.writeResult dst (alu .pass (s.memRead (s.pcRelative pcOffset9)) 0)))

/-- LDR (rule R105). -/
def execLdr (dst baseR : Reg) (offset6 : Word) (s : State) : Host.Outcome State Fault Refusal :=
  .next (dispatch .ldr s (s.writeResult dst (alu .pass (s.memRead (s.basePlus baseR offset6)) 0)))

/-- LDI (rule R108). -/
def execLdi (dst : Reg) (pcOffset9 : Word) (s : State) : Host.Outcome State Fault Refusal :=
  .next (dispatch .ldi s (s.writeResult dst (alu .pass (s.memRead (s.pointerAt pcOffset9)) 0)))

/-- LEA's write: with the flags or without, as `LEA_SETS_FLAGS` says (rule R110, decision D15). -/
def State.writeAddress (s : State) (dst : Reg) (v : Word) : State :=
  if s.cfg.leaSetsFlags then s.writeResult dst v else s.setReg dst v

/-- LEA (rule R110): no memory access. -/
def execLea (dst : Reg) (pcOffset9 : Word) (s : State) : Host.Outcome State Fault Refusal :=
  .next (dispatch .lea s (s.writeAddress dst (alu .pass (s.pcRelative pcOffset9) 0)))

/-- ST (rule R103). -/
def execSt (src : Reg) (pcOffset9 : Word) (s : State) : Host.Outcome State Fault Refusal :=
  .next (dispatch .st s (s.memWrite (s.pcRelative pcOffset9) (s.reg src)))

/-- STR (rule R106). -/
def execStr (src baseR : Reg) (offset6 : Word) (s : State) : Host.Outcome State Fault Refusal :=
  .next (dispatch .str s (s.memWrite (s.basePlus baseR offset6) (s.reg src)))

/-- STI (rule R109): the pointer is read before the write. -/
def execSti (src : Reg) (pcOffset9 : Word) (s : State) : Host.Outcome State Fault Refusal :=
  .next (dispatch .sti s (s.memWrite (s.pointerAt pcOffset9) (s.reg src)))

end Sys2Proof.Machine
end

