-- ==== Sys2Proof/Machine/Operate.lean ====
section
/-! DEFINITION. The meanings of the operate instructions: ADD and AND (rules R82, R83), NOT of the annex
(rule R107). Sources are read in the state before the destination is written (rule R12). -/

namespace Sys2Proof.Machine

/-- ADD, register mode (rule R82). -/
def execAddR (dst src1 src2 : Reg) (s : State) : Host.Outcome State Fault Refusal :=
  .next (s.writeResult dst (alu .add (s.reg src1) (s.reg src2)))

/-- ADD, immediate mode (rule R82). -/
def execAddI (dst src1 : Reg) (imm5 : Word) (s : State) : Host.Outcome State Fault Refusal :=
  .next (s.writeResult dst (alu .add (s.reg src1) imm5))

/-- AND, register mode (rule R83). -/
def execAndR (dst src1 src2 : Reg) (s : State) : Host.Outcome State Fault Refusal :=
  .next (s.writeResult dst (alu .and (s.reg src1) (s.reg src2)))

/-- AND, immediate mode (rule R83). -/
def execAndI (dst src1 : Reg) (imm5 : Word) (s : State) : Host.Outcome State Fault Refusal :=
  .next (s.writeResult dst (alu .and (s.reg src1) imm5))

/-- NOT (rules R87, R107). -/
def execNotR (dst src : Reg) (s : State) : Host.Outcome State Fault Refusal :=
  .next (dispatch .not s (s.writeResult dst (alu .not (s.reg src) 0)))

end Sys2Proof.Machine
end

