-- ==== Sys2Proof/Machine/Unsupported.lean ====
section
/-! DEFINITION. The meanings of RTI and RES: both raise UnsupportedOpcode under both settings of
`FULL_ISA` (rules R112, R120). -/

namespace Sys2Proof.Machine

/-- RTI (rule R112): there is no privilege state for it to restore. -/
def execRti (s : State) : Host.Outcome State Fault Refusal :=
  .next (raiseUnsupportedOpcode s)

/-- RES (rule R112): the reserved opcode. -/
def execRes (s : State) : Host.Outcome State Fault Refusal :=
  .next (raiseUnsupportedOpcode s)

end Sys2Proof.Machine
end

