-- ==== Sys2Proof/Machine/Dispatch.lean ====
section
/-! DEFINITION. The dispatch from an instruction to its meaning (rule R73): one arm per constructor. -/

namespace Sys2Proof.Machine

/-- The effect of an instruction on the state after its fetch (PC = A + 1, IR = the word). -/
def exec (i : Instr) (s : State) : Host.Outcome State Fault Refusal :=
  match i with
  | .addR dst src1 src2 => Sys2Proof.Machine.execAddR dst src1 src2 s
  | .addI dst src1 imm5 => Sys2Proof.Machine.execAddI dst src1 imm5 s
  | .andR dst src1 src2 => Sys2Proof.Machine.execAndR dst src1 src2 s
  | .andI dst src1 imm5 => Sys2Proof.Machine.execAndI dst src1 imm5 s
  | .br n z p offset9 => Sys2Proof.Machine.execBr n z p offset9 s
  | .jmp baseR => Sys2Proof.Machine.execJmp baseR s
  | .ld dst pcOffset9 => Sys2Proof.Machine.execLd dst pcOffset9 s
  | .st src pcOffset9 => Sys2Proof.Machine.execSt src pcOffset9 s
  | .jsr pcOffset11 => Sys2Proof.Machine.execJsr pcOffset11 s
  | .jsrr baseR => Sys2Proof.Machine.execJsrr baseR s
  | .ldr dst baseR offset6 => Sys2Proof.Machine.execLdr dst baseR offset6 s
  | .str src baseR offset6 => Sys2Proof.Machine.execStr src baseR offset6 s
  | .notR dst src => Sys2Proof.Machine.execNotR dst src s
  | .ldi dst pcOffset9 => Sys2Proof.Machine.execLdi dst pcOffset9 s
  | .sti src pcOffset9 => Sys2Proof.Machine.execSti src pcOffset9 s
  | .lea dst pcOffset9 => Sys2Proof.Machine.execLea dst pcOffset9 s
  | .trap trapvect8 => Sys2Proof.Machine.execTrap trapvect8 s
  | .rti => Sys2Proof.Machine.execRti s
  | .res => Sys2Proof.Machine.execRes s

end Sys2Proof.Machine
end

