-- ==== Sys2Proof/Machine/Step.lean ====
section
/-! DEFINITION. One step of the execution loop (rules R70 to R74), and the placing of an instruction
where the next step fetches it. -/

namespace Sys2Proof.Machine

/-- One `step` request: fetch, decode and execute while RUNNING; in HALTED the request "is not accepted
and changes nothing" (rules R70, R73; log entry 6). -/
def step (s : State) : Host.Outcome State Fault Refusal :=
  match s.runState with
  | .halted => .next s
  | .running => exec s.fetch.decoded s.fetch

/-- `s` with the word of an opcode-table row where the next step fetches, under the opcode map the table
is written in, and RUNNING, so that the next step runs exactly that instruction (log entry 7). -/
def State.withFetchWord (s : State) (nbits w : Nat) : State :=
  { s with
    mem := s.mem.writeWord s.pc (tableWord nbits w)
    runState := .running
    haltCause := .none
    cfg := { s.cfg with opcodeMap := conventionalOpcodes } }

end Sys2Proof.Machine
end

