-- ==== Sys2Proof/Machine/Output.lean ====
section
/-! DEFINITION. The outputs of the block: the diagnostic event (rules R24, R121, decision D21) and the
status port (rules R24, R34, R132). Neither is state and neither changes any. -/

namespace Sys2Proof.Machine

/-- The four severities of the logging collaborator (91_not_in_source.md N14); the core uses the
highest (rule R121). -/
inductive Severity
  | trace | info | warn | fatal
deriving DecidableEq, Repr

/-- The kinds of error: "Single error kind" (rule R120). -/
inductive ErrorKind
  | unsupportedOpcode
deriving DecidableEq, Repr

/-- A diagnostic event `diag(severity, kind, pc, IR)` (rules R24, R120). -/
structure Diag where
  severity : Severity
  kind : ErrorKind
  pc : Word
  ir : Word
deriving DecidableEq, Repr

/-- The event that raising UnsupportedOpcode emits in a state whose PC is already past the word in IR
(rule R120). -/
def unsupportedDiag (s : State) : Diag :=
  { severity := .fatal, kind := .unsupportedOpcode, pc := s.pc, ir := s.ir }

/-- The event a `step` request puts out, if any: one per halt on an unsupported opcode (rules R120,
R121). -/
def stepDiag (s : State) : Option Diag :=
  match s.runState with
  | .halted => none
  | .running =>
    if hasHandler s.cfg s.fetch.decoded.opcode then none else some (unsupportedDiag s.fetch)

/-- What the status port shows (rule R24). -/
structure Status where
  halted : Bool
  haltCause : HaltCause
  ir : Word
  pc : Word
deriving DecidableEq, Repr

/-- The status port (rules R24, R132). -/
def State.status (s : State) : Status :=
  { halted := decide (s.runState = .halted), haltCause := s.haltCause, ir := s.ir, pc := s.pc }

end Sys2Proof.Machine
end

