-- ==== Sys2Proof/Machine/HostPort.lean ====
section
/-! DEFINITION. The requests the outside world makes of the block (rules R24, R33, R34, R140 to R142):
reset, step, and the reads and writes of the host access port; and the loader's use of that port (rules
R40, R141). -/

namespace Sys2Proof.Machine

/-- A piece of state the host access port can read: every piece rule R22 lists. -/
inductive HostItem
  | reg (r : Reg)
  | pc
  | cond
  | runState
  | haltCause
  | ir
  | word (a : Word)
deriving DecidableEq, Repr

/-- What a host read answers: a word, or the value of a piece of state that holds a name. -/
inductive HostValue
  | word (v : Word)
  | cond (c : Cond)
  | runState (r : RunState)
  | haltCause (c : HaltCause)
deriving DecidableEq, Repr

/-- The value a piece of state holds. -/
def State.item (s : State) : HostItem → HostValue
  | .reg r => .word (s.reg r)
  | .pc => .word s.pc
  | .cond => .cond s.cond
  | .runState => .runState s.runState
  | .haltCause => .haltCause s.haltCause
  | .ir => .word s.ir
  | .word a => .word (s.memRead a)

/-- When the host access port is open, to reads and writes alike: between reset and the first step, or in
HALTED (rule R33, decision D6). Requests come one at a time, so no step is in progress. -/
def State.hostPortOpen (s : State) : Bool := !s.started || decide (s.runState = .halted)

/-- What a host read of a piece of state answers: its value, or none where the port is not open (rules
R24, R33). The status port of Output.lean is another port, and always shows what it shows. -/
def State.hostRead (s : State) (q : HostItem) : Option HostValue :=
  if s.hostPortOpen then some (s.item q) else none

/-- A request at the block's interface (rule R24). -/
inductive Request
  /-- Reset with the machine's own `ORIGIN` (rule R140). -/
  | reset
  /-- Reset with another `ORIGIN`: what a loader that reads its origin from the image asks (rule R142). -/
  | resetAt (origin : Word)
  /-- Execute one instruction (rule R70). -/
  | step
  /-- The host writes a memory word (rule R33). -/
  | writeMem (a v : Word)
  /-- The host writes a general register (rule R33). -/
  | writeReg (r : Reg) (v : Word)
  /-- The host reads a piece of state (rule R33); the answer is `State.hostRead`. -/
  | read (q : HostItem)
deriving DecidableEq, Repr

/-- Reset: every piece of state gets its value of rule R23, in any run state (rule R140, decision D22). -/
def State.doReset (s : State) : State := State.resetWith s.cfg

/-- Reset with `ORIGIN` set to `origin`, which then stays fixed for the run (rule R142). -/
def State.doResetAt (s : State) (origin : Word) : State :=
  State.resetWith { s.cfg with origin := origin }

/-- The state after a request, or none where the block does not accept it: a step in HALTED (rule R70),
a host access while it is running (rule R33: "the model gives them no move"). A read has no effect on
any state (rule R34). -/
def request (q : Request) (s : State) : Option State :=
  match q with
  | .reset => some s.doReset
  | .resetAt origin => some (s.doResetAt origin)
  | .step =>
    match s.runState with
    | .halted => none
    | .running =>
      match step s with
      | .next t => some t
      | .fault _ => none
      | .refused _ => none
  | .writeMem a v => if s.hostPortOpen then some (s.memWrite a v) else none
  | .writeReg r v => if s.hostPortOpen then some (s.setReg r v) else none
  | .read q => (s.hostRead q).map fun _ => s

/-- A sequence of requests, each of them accepted. -/
def requests : List Request → State → Option State
  | [], s => some s
  | q :: rest, s => (request q s).bind (requests rest)

/-- The words of a program image held as bytes, the high byte of each first (rule R40, decision D7); a
last odd byte is no word. It binds the loader, not the core. -/
def imageWords : List Byte → List Word
  | hi :: lo :: rest => wordOfBytes hi lo :: imageWords rest
  | [_] => []
  | [] => []

/-- The host writes that place words from an address up (rule R141), wrapping (rule R36). -/
def loadWords : Word → List Word → List Request
  | _, [] => []
  | a, w :: rest => .writeMem a w :: loadWords (a + 1) rest

/-- A loader that reads its origin from the image's first word resets the block with that value as
`ORIGIN` and loads the rest there (rule R142); an empty image is no program. -/
def bootImage : List Word → List Request
  | [] => []
  | origin :: rest => .resetAt origin :: loadWords origin rest

end Sys2Proof.Machine
end

