-- ==== Sys2Proof/Safety.lean ====
section
/-! DEFINITION. The terms claims about the machine use: the invariant of its states, what an instruction
may write, runs and their end. -/

namespace Sys2Proof

/-- The register an instruction may write: its destination, or R7 as the link (rules R82, R83, R102,
R104, R105, R107, R108, R110, R111). -/
def Instr.destination : Instr → Option Reg
  | .addR dst _ _ => some dst
  | .addI dst _ _ => some dst
  | .andR dst _ _ => some dst
  | .andI dst _ _ => some dst
  | .br _ _ _ _ => none
  | .jmp _ => none
  | .ld dst _ => some dst
  | .st _ _ => none
  | .jsr _ => some .r7
  | .jsrr _ => some .r7
  | .ldr dst _ _ => some dst
  | .str _ _ _ => none
  | .notR dst _ => some dst
  | .ldi dst _ => some dst
  | .sti _ _ => none
  | .lea dst _ => some dst
  | .trap _ => some .r7
  | .rti => none
  | .res => none

/-- The flag writers of rule R113: ADD, AND, NOT, LD, LDR, LDI, and LEA when `LEA_SETS_FLAGS`. -/
def Instr.writesFlags (c : Config) : Instr → Bool
  | .addR _ _ _ => true
  | .addI _ _ _ => true
  | .andR _ _ _ => true
  | .andI _ _ _ => true
  | .br _ _ _ _ => false
  | .jmp _ => false
  | .ld _ _ => true
  | .st _ _ => false
  | .jsr _ => false
  | .jsrr _ => false
  | .ldr _ _ _ => true
  | .str _ _ _ => false
  | .notR _ _ => true
  | .ldi _ _ => true
  | .sti _ _ => false
  | .lea _ _ => c.leaSetsFlags
  | .trap _ => false
  | .rti => false
  | .res => false

namespace Machine

/-- The address an instruction stores to, if it is a store (rules R103, R106, R109), with the functions
its meaning uses. -/
def storeAddress (i : Instr) (s : State) : Option Word :=
  match i with
  | .st _ off => some (s.pcRelative off)
  | .str _ baseR off => some (s.basePlus baseR off)
  | .sti _ off => some (s.pointerAt off)
  | .addR _ _ _ => none
  | .addI _ _ _ => none
  | .andR _ _ _ => none
  | .andI _ _ _ => none
  | .br _ _ _ _ => none
  | .jmp _ => none
  | .ld _ _ => none
  | .jsr _ => none
  | .jsrr _ => none
  | .ldr _ _ _ => none
  | .notR _ _ => none
  | .ldi _ _ => none
  | .lea _ _ => none
  | .trap _ => none
  | .rti => none
  | .res => none

/-- What rule R80 says of the flag of a value, read as two's complement: ZRO for 0, NEG below, POS
above. -/
def Classifies (v : Word) (c : Cond) : Prop :=
  (v.toInt = 0 → c = .zro) ∧ (v.toInt < 0 → c = .neg) ∧ (0 < v.toInt → c = .pos)

/-- No instruction's effect touches these but a halt: IR, run state, halt cause, the first-step mark, the
parameters. -/
def SameControl (s t : State) : Prop :=
  t.ir = s.ir ∧ t.runState = s.runState ∧ t.haltCause = s.haltCause ∧ t.started = s.started ∧ t.cfg = s.cfg

/-- Every word of memory reads as before. -/
def SameMemory (s t : State) : Prop := ∀ a, t.memRead a = s.memRead a

/-- Every register reads as before. -/
def SameRegs (s t : State) : Prop := ∀ r, t.reg r = s.reg r

/-- The state `t` is `s` halted on an unsupported opcode: run state and halt cause change and nothing
else does (rules R79, R120). -/
def HaltedUnsupported (s t : State) : Prop :=
  t.runState = .halted ∧ t.haltCause = .unsupportedOpcode ∧ t.pc = s.pc ∧ t.cond = s.cond ∧ t.ir = s.ir ∧
  t.started = s.started ∧ t.cfg = s.cfg ∧ SameRegs s t ∧ SameMemory s t

/-- `t` is `s` with `v` in the register `d` and COND the flag of `v`; nothing else differs (rules R80,
R81). -/
def WritesResult (d : Reg) (v : Word) (s t : State) : Prop :=
  (∀ r, t.reg r = if r = d then v else s.reg r) ∧ Classifies v t.cond ∧ t.pc = s.pc ∧
  SameControl s t ∧ SameMemory s t

/-- `t` is `s` with the word `v` stored at address `a`: every other word of memory, the registers, COND
and PC are as before (rule R38). -/
def StoresWord (a v : Word) (s t : State) : Prop :=
  (∀ b, t.memRead b = if b = a then v else s.memRead b) ∧ SameRegs s t ∧ t.cond = s.cond ∧ t.pc = s.pc ∧
  SameControl s t

/-- `t` is `s` with PC at `target` and the PC of `s`, the return address, in R7; nothing else differs
(rules R104, R111). -/
def LinksAndJumps (target : Word) (s t : State) : Prop :=
  t.pc = target ∧ (∀ r, t.reg r = if r = .r7 then s.pc else s.reg r) ∧ t.cond = s.cond ∧
  SameControl s t ∧ SameMemory s t

/-- The invariant of the machine's states. -/
structure State.Inv (s : State) : Prop where
  /-- Memory is in its canonical form (log entry 1). -/
  memWf : s.mem.wf = true
  /-- `halt_cause` is NONE exactly while RUNNING (rules R18, R19). -/
  causeNone : s.haltCause = .none ↔ s.runState = .running
  /-- HALT_TRAP is "reachable only with FULL_ISA = true" (rule R19). -/
  trapFull : s.haltCause = .haltTrap → s.cfg.fullIsa = true
  /-- Before the first step PC, COND and IR are as reset left them: the host writes neither (rule R33). -/
  fresh : s.started = false →
    s.runState = .running ∧ s.pc = s.cfg.origin ∧ s.cond = condAtReset s.cfg.condReset ∧ s.ir = 0
  /-- COND holds NONE only "from reset until the first flag-affecting instruction" (rule R16): with
  `COND_RESET = ZRO` it never does. -/
  condNone : s.cond = .none → s.cfg.condReset = .none

/-- The states that accepted requests lead to, from any machine's reset state (rules R24, R141). -/
inductive Reachable : State → Prop
  | reset (c : Config) : Reachable (State.resetWith c)
  | request (q : Request) (s t : State) : Reachable s → request q s = some t → Reachable t

/-- `n` steps from `s` lead to `t`. -/
def RunsTo : Nat → State → State → Prop
  | 0, s, t => t = s
  | n + 1, s, t => ∃ u, step s = .next u ∧ RunsTo n u t

/-- A run ends when the run state is HALTED (rule R77). -/
def EndsIn (s t : State) : Prop := t.runState = .halted ∧ ∃ n, RunsTo n s t

end Machine

end Sys2Proof
end

