-- ==== Sys2Proof/Certificates/Slice0/Obligations.lean ====
section
/-! DEFINITION. The statements about the machine. Where a statement speaks of `exec`, the state is the
one after the fetch: PC is A + 1 and IR the word (rule R13). A statement about every state holds for
every configuration, which the state carries (log entry 2). Statements about the annex have the premise
`fullIsa = true`: they are no claims about the document's hardware (45_ext_full_isa.md). -/

open Sys2Proof Sys2Proof.Machine

/-! ## The step -/

/-- Rule R70: "A step is taken only when the run state is `RUNNING`"; in HALTED a step request changes
nothing, and one in RUNNING is accepted. That the host's step answers the same state, where the request
is not accepted, is the model's reading of "changes nothing" (log entry 6). -/
def Obligations.StepOnlyWhileRunning : Prop :=
  ∀ s : State,
    (s.runState = .halted → step s = .next s ∧ request .step s = none) ∧
    (s.runState = .running → ∃ t, step s = .next t ∧ request .step s = some t)

/-- Fetch, decode and dispatch in one step (40_fetch_and_dispatch.md, rules R71 to R73): in RUNNING, a
step reads the word at PC into IR, increments PC modulo 2^16, and runs the instruction the word decodes
to. That it also sets `started` is no rule of the spec: the bit is the model's own (log entry 5, DESIGN
CHOICE). -/
def Obligations.StepRunsFetchedInstruction : Prop :=
  ∀ (s : State) (i : Instr), s.runState = .running → decode s.cfg.opcodeMap (s.memRead s.pc) = i →
    step s = exec i { s with
      ir := s.memRead s.pc
      pc := BitVec.ofNat 16 (s.pc.toNat + 1)
      started := true }

/-- No failure but a missing handler (rule R122), and HALTED is entered only by halting (rule R18): an
instruction whose opcode has a handler leaves the run state and the halt cause alone, but for the halting
TRAP (rule R111, decision D17 of the spec). Every step answers a next state: in RUNNING by rule R122; in
HALTED that is the model's reading of rule R70 (log entry 6, DEDUCED). -/
def Obligations.HandlersNeverFail : Prop :=
  (∀ s : State, ∃ t, step s = .next t) ∧
  (∀ (i : Instr) (s : State), hasHandler s.cfg i.opcode = true →
    ∃ t, exec i s = .next t ∧
      ((t.runState = s.runState ∧ t.haltCause = s.haltCause) ∨
       (i = .trap (s.cfg.haltTrapvect.setWidth 16) ∧ t.runState = .halted ∧ t.haltCause = .haltTrap)))

/-- The halt of 60_exceptions.md section 1 and 40_fetch_and_dispatch.md: a word whose opcode has no
handler (all but four in the base configuration; RTI and RES with FULL_ISA, decision D18 of the spec)
halts the machine with the cause UNSUPPORTED_OPCODE (decision D9 of the spec), and of the spec's state
that step writes IR, PC, run state and halt cause only. That it also sets `started` is no rule of the
spec: the bit is the model's own (log entry 5, DESIGN CHOICE). -/
def Obligations.UnsupportedOpcodeHaltsPrecisely : Prop :=
  ∀ (s : State) (o : Opcode), s.runState = .running →
    s.cfg.opcodeMap.lookup ((s.memRead s.pc).extractLsb 15 12) = o →
    ((s.cfg.fullIsa = false ∧ o ≠ .br ∧ o ≠ .add ∧ o ≠ .and ∧ o ≠ .jmp) ∨ o = .rti ∨ o = .res) →
    ∃ t, step s = .next t ∧ t.runState = .halted ∧ t.haltCause = .unsupportedOpcode ∧
      t.ir = s.memRead s.pc ∧ t.pc = s.pc + 1 ∧ t.cond = s.cond ∧ t.started = true ∧ t.cfg = s.cfg ∧
      SameRegs s t ∧ SameMemory s t

/-- The diagnostic event of 60_exceptions.md section 1 (decisions D9, D21): a step request puts out an
event exactly when the step halts on an unsupported opcode, with the FATAL severity and the PC and IR it
leaves. -/
def Obligations.DiagnosticExactlyOnUnsupportedHalt : Prop :=
  ∀ (s : State) (d : Diag),
    stepDiag s = some d ↔
      s.runState = .running ∧ ∃ t, step s = .next t ∧ t.runState = .halted ∧
        t.haltCause = .unsupportedOpcode ∧
        d = { severity := .fatal, kind := .unsupportedOpcode, pc := t.pc, ir := t.ir }

/-- Rule R75: PC at the end of a step from address A. -/
def Obligations.NextPcOfBaseInstructions : Prop :=
  ∀ s : State, s.runState = .running → ∃ t, step s = .next t ∧
    (∀ d a b, decode s.cfg.opcodeMap (s.memRead s.pc) = .addR d a b → t.pc = s.pc + 1) ∧
    (∀ d a v, decode s.cfg.opcodeMap (s.memRead s.pc) = .addI d a v → t.pc = s.pc + 1) ∧
    (∀ d a b, decode s.cfg.opcodeMap (s.memRead s.pc) = .andR d a b → t.pc = s.pc + 1) ∧
    (∀ d a v, decode s.cfg.opcodeMap (s.memRead s.pc) = .andI d a v → t.pc = s.pc + 1) ∧
    (∀ n z p off, decode s.cfg.opcodeMap (s.memRead s.pc) = .br n z p off →
      t.pc = if (n = true ∧ s.cond = .neg) ∨ (z = true ∧ s.cond = .zro) ∨ (p = true ∧ s.cond = .pos)
        then s.pc + 1 + off else s.pc + 1) ∧
    (∀ b, decode s.cfg.opcodeMap (s.memRead s.pc) = .jmp b → t.pc = s.reg b) ∧
    (hasHandler s.cfg (decode s.cfg.opcodeMap (s.memRead s.pc)).opcode = false → t.pc = s.pc + 1)

/-! ## Decoding and encoding -/

/-- Decode and encode agree, for every opcode map that numbers every opcode and every instruction with
operands its fields can hold (30_encoding.md sections 2 and 3, 45_ext_full_isa.md section 1). -/
def Obligations.DecodeEncodeRoundTrip : Prop :=
  ∀ (m : OpcodeMap) (i : Instr), m.wf = true → i.wf = true → decode m (encode m i) = i

/-- The other direction: encoding what a word decodes to gives back every bit of the word that its
format uses, the opcode among them. -/
def Obligations.EncodeDecodeKeepsUsedBits : Prop :=
  ∀ (m : OpcodeMap) (w : Word), m.wf = true →
    encode m (decode m w) &&& (decode m w).usedBits = w &&& (decode m w).usedBits

/-- Every word decodes to a well-formed instruction: the immediate and offset ranges of 30_encoding.md
section 3 and 45_ext_full_isa.md section 1. -/
def Obligations.DecodedInstructionsAreWellFormed : Prop :=
  ∀ (m : OpcodeMap) (w : Word), (decode m w).wf = true

/-- Unused bits are ignored (decisions D8 and D19 of the spec, 30_encoding.md section 5): words that
agree on the bits their format uses decode alike. -/
def Obligations.UnusedBitsIgnored : Prop :=
  ∀ (m : OpcodeMap) (w w' : Word),
    w &&& (decode m w).usedBits = w' &&& (decode m w).usedBits → decode m w' = decode m w

/-- Rule R7: sign extension reads the low `n` bits as two's complement; the zero extension of the trap
vector pads with zeros. -/
def Obligations.SextReadsTwosComplement : Prop :=
  (∀ (n : Nat) (v : Word), 0 < n → n ≤ 16 → v.toNat < 2 ^ n →
    (v.getLsbD (n - 1) = true → (sext n v).toInt = (v.toNat : Int) - 2 ^ n) ∧
    (v.getLsbD (n - 1) = false → sext n v = v)) ∧
  (∀ w : Word, (Field.trapvect8 w).toNat = w.toNat % 256)

/-- Words written out from the spec's encodings (30_encoding.md sections 2 and 4, 45_ext_full_isa.md
section 1, 95_test_vectors.md section 2) decode to the instructions they stand for. -/
def Obligations.WrittenOutWordsDecode : Prop :=
  decode conventionalOpcodes 0b0001000000111111#16 = .addI .r0 .r0 0xFFFF ∧
  decode conventionalOpcodes 0b0001101011000100#16 = .addR .r5 .r3 .r4 ∧
  decode conventionalOpcodes 0b0101011001000010#16 = .andR .r3 .r1 .r2 ∧
  decode conventionalOpcodes 0b0000110111111111#16 = .br true true false 0xFFFF ∧
  decode conventionalOpcodes 0b1100111011111111#16 = .jmp .r3 ∧
  decode conventionalOpcodes 0b0111001010111111#16 = .str .r1 .r2 0xFFFF ∧
  decode conventionalOpcodes 0b0100100000010000#16 = .jsr 0x0010 ∧
  decode conventionalOpcodes 0b1111000000100101#16 = .trap 0x0025

/-- A program image holds each word high byte first (20_memory.md section 2, decision D7; log entry 1):
the two bytes of a word decode to what the word decodes to, and the rest of the bytes is left. -/
def Obligations.ImageBytesDecodeAsTheirWord : Prop :=
  ∀ (m : OpcodeMap) (w : Word) (rest : List Byte),
    decodeBytes m (bytesOfWord w ++ rest) = .ok (decode m w, rest)

/-- The host's placing of a table word (log entry 7): the next step runs exactly the instruction the
decoder reads from that word. `started` is the model's own bit (log entry 5, DESIGN CHOICE). -/
def Obligations.PlacedWordIsRunNext : Prop :=
  ∀ (s : State) (nbits w : Nat) (i : Instr), s.mem.wf = true → decodeTableWord nbits w = some i →
    step (s.withFetchWord nbits w) =
      exec i { s.withFetchWord nbits w with
        ir := tableWord nbits w
        pc := s.pc + 1
        started := true }

/-! ## The flags -/

/-- Rule R80: the updater sets COND to ZRO, NEG or POS by the value's sign, for every value, and writes
nothing else. -/
def Obligations.UpdateFlagsClassifies : Prop :=
  ∀ (s : State) (v : Word),
    Classifies v (s.updateFlags v).cond ∧ (s.updateFlags v).pc = s.pc ∧ SameRegs s (s.updateFlags v) ∧
    SameMemory s (s.updateFlags v) ∧ SameControl s (s.updateFlags v)

/-- Rule R17: COND is written only by the updater, which the flag writers invoke: where an instruction
changes COND it is a flag writer, its opcode has a handler, and COND is the flag of the register it
wrote. And COND is read only by BR: with any other COND before it, any other instruction leaves the same
state, with the same COND where it is a flag writer with a handler, and with the COND that stood before
where it is not. -/
def Obligations.CondWrittenByUpdaterReadByBr : Prop :=
  (∀ (i : Instr) (s t : State), exec i s = .next t → t.cond ≠ s.cond →
    i.writesFlags s.cfg = true ∧ hasHandler s.cfg i.opcode = true ∧
    ∃ d, i.destination = some d ∧ Classifies (t.reg d) t.cond) ∧
  (∀ (i : Instr) (s t : State) (c : Cond), i.opcode ≠ .br → exec i s = .next t →
    exec i { s with cond := c } = .next { t with
      cond := if i.writesFlags s.cfg = true ∧ hasHandler s.cfg i.opcode = true then t.cond else c })

/-- COND leaves NONE for good (10_state.md section 3; decision D4): no step brings NONE back. -/
def Obligations.CondNeverReturnsToNone : Prop :=
  ∀ (n : Nat) (s t : State), s.cond ≠ .none → RunsTo n s t → t.cond ≠ .none

/-! ## ADD and AND -/

/-- Rule R82: ADD in both modes, for every word of its opcode and every state: the destination gets the
sum modulo 2^16, COND its flag, and nothing else changes. -/
def Obligations.AddWritesSumAndFlags : Prop :=
  (∀ (m : OpcodeMap) (w : Word), m.lookup (w.extractLsb 15 12) = .add →
    decode m w =
      if w.getLsbD 5 then
        .addI (Reg.ofBits (w.extractLsb 11 9)) (Reg.ofBits (w.extractLsb 8 6)) ((w.extractLsb 4 0).signExtend 16)
      else .addR (Reg.ofBits (w.extractLsb 11 9)) (Reg.ofBits (w.extractLsb 8 6)) (Reg.ofBits (w.extractLsb 2 0))) ∧
  (∀ (d a b : Reg) (s : State), ∃ t, exec (.addR d a b) s = .next t ∧
    WritesResult d (BitVec.ofNat 16 ((s.reg a).toNat + (s.reg b).toNat)) s t) ∧
  (∀ (d a : Reg) (v : Word) (s : State), ∃ t, exec (.addI d a v) s = .next t ∧
    WritesResult d (BitVec.ofNat 16 ((s.reg a).toNat + v.toNat)) s t)

/-- Rule R83: AND in both modes, bit by bit; COND is the flag of the result, and nothing else changes. -/
def Obligations.AndWritesConjunctionAndFlags : Prop :=
  (∀ (m : OpcodeMap) (w : Word), m.lookup (w.extractLsb 15 12) = .and →
    decode m w =
      if w.getLsbD 5 then
        .andI (Reg.ofBits (w.extractLsb 11 9)) (Reg.ofBits (w.extractLsb 8 6)) ((w.extractLsb 4 0).signExtend 16)
      else .andR (Reg.ofBits (w.extractLsb 11 9)) (Reg.ofBits (w.extractLsb 8 6)) (Reg.ofBits (w.extractLsb 2 0))) ∧
  (∀ (d a b : Reg) (s : State), ∃ t, exec (.andR d a b) s = .next t ∧ WritesResult d (t.reg d) s t ∧
    ∀ k, (t.reg d).getLsbD k = ((s.reg a).getLsbD k && (s.reg b).getLsbD k)) ∧
  (∀ (d a : Reg) (v : Word) (s : State), ∃ t, exec (.andI d a v) s = .next t ∧ WritesResult d (t.reg d) s t ∧
    ∀ k, (t.reg d).getLsbD k = ((s.reg a).getLsbD k && v.getLsbD k))

/-! ## Control transfer -/

/-- Rule R88: BR is taken when a requested condition is the current one, and then adds its offset to the
incremented PC; nothing else changes. -/
def Obligations.BrTakenOnIntersection : Prop :=
  (∀ (m : OpcodeMap) (w : Word), m.lookup (w.extractLsb 15 12) = .br →
    decode m w = .br (w.getLsbD 11) (w.getLsbD 10) (w.getLsbD 9) ((w.extractLsb 8 0).signExtend 16)) ∧
  (∀ (n z p : Bool) (off : Word) (s : State),
    exec (.br n z p off) s = .next { s with
      pc := if (n = true ∧ s.cond = .neg) ∨ (z = true ∧ s.cond = .zro) ∨ (p = true ∧ s.cond = .pos)
        then BitVec.ofNat 16 (s.pc.toNat + off.toNat) else s.pc })

/-- Rule R89: JMP puts the base register in PC; nothing else changes. -/
def Obligations.JmpGoesToRegister : Prop :=
  (∀ (m : OpcodeMap) (w : Word), m.lookup (w.extractLsb 15 12) = .jmp →
    decode m w = .jmp (Reg.ofBits (w.extractLsb 8 6))) ∧
  (∀ (b : Reg) (s : State), exec (.jmp b) s = .next { s with pc := s.reg b })

/-- JSR and JSRR (45_ext_full_isa.md section 2; decision D16 of the spec: the base is read before R7 is
written): jump, with the return address in R7, for `JSRR R7` too. -/
def Obligations.SubroutineJumpsLinkThroughR7 : Prop :=
  (∀ (m : OpcodeMap) (w : Word), m.lookup (w.extractLsb 15 12) = .jsr →
    decode m w = if w.getLsbD 11 then .jsr ((w.extractLsb 10 0).signExtend 16)
      else .jsrr (Reg.ofBits (w.extractLsb 8 6))) ∧
  (∀ (off : Word) (s : State), s.cfg.fullIsa = true → ∃ t, exec (.jsr off) s = .next t ∧
    LinksAndJumps (BitVec.ofNat 16 (s.pc.toNat + off.toNat)) s t) ∧
  (∀ (b : Reg) (s : State), s.cfg.fullIsa = true → ∃ t, exec (.jsrr b) s = .next t ∧
    LinksAndJumps (s.reg b) s t)

/-- TRAP (45_ext_full_isa.md section 2; decision D17 of the spec): R7 gets the return address; then the
halt vector halts with HALT_TRAP, and any other goes to the word in the vector table. -/
def Obligations.TrapLinksThenHaltsOrVectors : Prop :=
  (∀ (m : OpcodeMap) (w : Word), m.lookup (w.extractLsb 15 12) = .trap →
    decode m w = .trap ((w.extractLsb 7 0).setWidth 16)) ∧
  (∀ (v : Word) (s : State), s.cfg.fullIsa = true → v ≠ s.cfg.haltTrapvect.setWidth 16 →
    ∃ t, exec (.trap v) s = .next t ∧ LinksAndJumps (s.memRead v) s t) ∧
  (∀ s : State, s.cfg.fullIsa = true → ∃ t, exec (.trap (s.cfg.haltTrapvect.setWidth 16)) s = .next t ∧
    t.runState = .halted ∧ t.haltCause = .haltTrap ∧ t.pc = s.pc ∧
    (∀ r, t.reg r = if r = .r7 then s.pc else s.reg r) ∧ t.cond = s.cond ∧ t.ir = s.ir ∧
    t.started = s.started ∧ t.cfg = s.cfg ∧ SameMemory s t)

/-! ## Loads, LEA, NOT -/

/-- Rule R102: LD. -/
def Obligations.LdLoadsPcRelative : Prop :=
  (∀ (m : OpcodeMap) (w : Word), m.lookup (w.extractLsb 15 12) = .ld →
    decode m w = .ld (Reg.ofBits (w.extractLsb 11 9)) ((w.extractLsb 8 0).signExtend 16)) ∧
  (∀ (d : Reg) (off : Word) (s : State), s.cfg.fullIsa = true → ∃ t, exec (.ld d off) s = .next t ∧
    WritesResult d (s.memRead (BitVec.ofNat 16 (s.pc.toNat + off.toNat))) s t)

/-- Rule R105: LDR; the base may be the destination. -/
def Obligations.LdrLoadsBasePlusOffset : Prop :=
  (∀ (m : OpcodeMap) (w : Word), m.lookup (w.extractLsb 15 12) = .ldr →
    decode m w =
      .ldr (Reg.ofBits (w.extractLsb 11 9)) (Reg.ofBits (w.extractLsb 8 6)) ((w.extractLsb 5 0).signExtend 16)) ∧
  (∀ (d b : Reg) (off : Word) (s : State), s.cfg.fullIsa = true → ∃ t, exec (.ldr d b off) s = .next t ∧
    WritesResult d (s.memRead (BitVec.ofNat 16 ((s.reg b).toNat + off.toNat))) s t)

/-- Rule R108: LDI loads through a pointer in memory. -/
def Obligations.LdiLoadsThroughPointer : Prop :=
  (∀ (m : OpcodeMap) (w : Word), m.lookup (w.extractLsb 15 12) = .ldi →
    decode m w = .ldi (Reg.ofBits (w.extractLsb 11 9)) ((w.extractLsb 8 0).signExtend 16)) ∧
  (∀ (d : Reg) (off : Word) (s : State), s.cfg.fullIsa = true → ∃ t, exec (.ldi d off) s = .next t ∧
    WritesResult d (s.memRead (s.memRead (BitVec.ofNat 16 (s.pc.toNat + off.toNat)))) s t)

/-- LEA (45_ext_full_isa.md section 2; decision D15 of the spec): the address itself, with the flags as
`LEA_SETS_FLAGS` says. -/
def Obligations.LeaWritesAddress : Prop :=
  (∀ (m : OpcodeMap) (w : Word), m.lookup (w.extractLsb 15 12) = .lea →
    decode m w = .lea (Reg.ofBits (w.extractLsb 11 9)) ((w.extractLsb 8 0).signExtend 16)) ∧
  (∀ (d : Reg) (off : Word) (s : State), s.cfg.fullIsa = true → ∃ t, exec (.lea d off) s = .next t ∧
    (∀ r, t.reg r = if r = d then BitVec.ofNat 16 (s.pc.toNat + off.toNat) else s.reg r) ∧
    (s.cfg.leaSetsFlags = true → Classifies (t.reg d) t.cond) ∧
    (s.cfg.leaSetsFlags = false → t.cond = s.cond) ∧ t.pc = s.pc ∧ SameControl s t ∧ SameMemory s t)

/-- Rule R107: NOT, bit by bit. -/
def Obligations.NotWritesComplementAndFlags : Prop :=
  (∀ (m : OpcodeMap) (w : Word), m.lookup (w.extractLsb 15 12) = .not →
    decode m w = .notR (Reg.ofBits (w.extractLsb 11 9)) (Reg.ofBits (w.extractLsb 8 6))) ∧
  (∀ (d a : Reg) (s : State), s.cfg.fullIsa = true → ∃ t, exec (.notR d a) s = .next t ∧
    WritesResult d (t.reg d) s t ∧ ∀ k < 16, (t.reg d).getLsbD k = !(s.reg a).getLsbD k)

/-! ## Stores -/

/-- Rule R103: ST. The premise is the canonical form of memory, which every step keeps (StepKeepsInv). -/
def Obligations.StStoresPcRelative : Prop :=
  (∀ (m : OpcodeMap) (w : Word), m.lookup (w.extractLsb 15 12) = .st →
    decode m w = .st (Reg.ofBits (w.extractLsb 11 9)) ((w.extractLsb 8 0).signExtend 16)) ∧
  (∀ (r : Reg) (off : Word) (s : State), s.cfg.fullIsa = true → s.mem.wf = true →
    ∃ t, exec (.st r off) s = .next t ∧ StoresWord (s.pc + off) (s.reg r) s t)

/-- Rule R106: STR; the source may be the base. -/
def Obligations.StrStoresBasePlusOffset : Prop :=
  (∀ (m : OpcodeMap) (w : Word), m.lookup (w.extractLsb 15 12) = .str →
    decode m w =
      .str (Reg.ofBits (w.extractLsb 11 9)) (Reg.ofBits (w.extractLsb 8 6)) ((w.extractLsb 5 0).signExtend 16)) ∧
  (∀ (r b : Reg) (off : Word) (s : State), s.cfg.fullIsa = true → s.mem.wf = true →
    ∃ t, exec (.str r b off) s = .next t ∧ StoresWord (s.reg b + off) (s.reg r) s t)

/-- Rule R109: STI; the pointer is read before the write. -/
def Obligations.StiStoresThroughPointer : Prop :=
  (∀ (m : OpcodeMap) (w : Word), m.lookup (w.extractLsb 15 12) = .sti →
    decode m w = .sti (Reg.ofBits (w.extractLsb 11 9)) ((w.extractLsb 8 0).signExtend 16)) ∧
  (∀ (r : Reg) (off : Word) (s : State), s.cfg.fullIsa = true → s.mem.wf = true →
    ∃ t, exec (.sti r off) s = .next t ∧ StoresWord (s.memRead (s.pc + off)) (s.reg r) s t)

/-- Rule R47: a read returns the value of the most recent write to its address: an LDR right after an
STR to the same base and offset gives the stored register. -/
def Obligations.LoadAfterStoreReturnsValue : Prop :=
  ∀ (r b d : Reg) (off : Word) (s : State), s.cfg.fullIsa = true → s.mem.wf = true →
    ∃ t u, exec (.str r b off) s = .next t ∧ exec (.ldr d b off) t = .next u ∧ u.reg d = s.reg r

/-- A store to the next instruction's word is what the next step runs (20_memory.md section 6,
45_ext_full_isa.md section 2: no fence, flush or delay). `started` is the model's own bit (log entry 5,
DESIGN CHOICE). -/
def Obligations.StoredWordIsFetchedNext : Prop :=
  ∀ (r : Reg) (s : State), s.runState = .running → s.cfg.fullIsa = true → s.mem.wf = true →
    ∃ t, exec (.st r 0) s = .next t ∧
      step t = exec (decode s.cfg.opcodeMap (s.reg r))
        { t with ir := s.reg r, pc := s.pc + 1, started := true }

/-! ## The unsupported opcodes -/

/-- RTI and RES halt with UnsupportedOpcode under both settings of FULL_ISA (45_ext_full_isa.md section
2, decision D18 of the spec). -/
def Obligations.RtiAndResAlwaysUnsupported : Prop :=
  (∀ (m : OpcodeMap) (w : Word),
    (m.lookup (w.extractLsb 15 12) = .rti → decode m w = .rti) ∧
    (m.lookup (w.extractLsb 15 12) = .res → decode m w = .res)) ∧
  (∀ s : State, ∃ t, exec .rti s = .next t ∧ HaltedUnsupported s t) ∧
  (∀ s : State, ∃ t, exec .res s = .next t ∧ HaltedUnsupported s t)

/-- In the base configuration every instruction but ADD, AND, BR and JMP halts with UnsupportedOpcode
(45_ext_full_isa.md section 1, decision D10 of the spec). -/
def Obligations.AnnexUnsupportedInBaseConfiguration : Prop :=
  ∀ (i : Instr) (s : State), s.cfg.fullIsa = false →
    i.opcode ≠ .br → i.opcode ≠ .add → i.opcode ≠ .and → i.opcode ≠ .jmp →
    ∃ t, exec i s = .next t ∧ HaltedUnsupported s t

/-- ADD, AND, BR and JMP do not depend on FULL_ISA (45_ext_full_isa.md section 1, decision D10 of the
spec). -/
def Obligations.BaseInstructionsIgnoreFullIsa : Prop :=
  ∀ (i : Instr) (s t : State) (b : Bool),
    (i.opcode = .br ∨ i.opcode = .add ∨ i.opcode = .and ∨ i.opcode = .jmp) → exec i s = .next t →
    exec i { s with cfg := { s.cfg with fullIsa := b } } = .next { t with cfg := { t.cfg with fullIsa := b } }

/-! ## Rules about the whole machine -/

/-- No instruction changes a register but its destination (the link register R7 for JSR, JSRR and TRAP):
10_state.md section 1, with the write port of section 8. -/
def Obligations.OnlyDestinationRegisterChanges : Prop :=
  ∀ (i : Instr) (s t : State), exec i s = .next t → ∀ r, t.reg r ≠ s.reg r → i.destination = some r

/-- No instruction changes a word of memory but a store of the annex, and that one only the word at its
address (20_memory.md sections 4 and 1). -/
def Obligations.OnlyStoresChangeMemory : Prop :=
  ∀ (i : Instr) (s t : State), s.mem.wf = true → exec i s = .next t → ∀ a, t.memRead a ≠ s.memRead a →
    s.cfg.fullIsa = true ∧ storeAddress i s = some a

/-- No instruction changes IR, the parameters or the first-step mark, and none but BR, JMP, JSR, JSRR and
TRAP changes PC (40_fetch_and_dispatch.md, 45_ext_full_isa.md section 3). -/
def Obligations.OnlyControlTransfersChangePc : Prop :=
  ∀ (i : Instr) (s t : State), exec i s = .next t →
    t.ir = s.ir ∧ t.cfg = s.cfg ∧ t.started = s.started ∧
    (t.pc ≠ s.pc → i.opcode = .br ∨ i.opcode = .jmp ∨ i.opcode = .jsr ∨ i.opcode = .trap)

/-- Halt cause and run state change together and only to HALTED (10_state.md section 4, decision D9):
a step that changes the halt cause ran from RUNNING and halted, on an unsupported opcode or, with
FULL_ISA, a TRAP. -/
def Obligations.HaltCauseWrittenOnlyWhenHalting : Prop :=
  ∀ s t : State, step s = .next t → t.runState ≠ s.runState ∨ t.haltCause ≠ s.haltCause →
    s.runState = .running ∧ t.runState = .halted ∧
    (t.haltCause = .unsupportedOpcode ∨ (t.haltCause = .haltTrap ∧ s.cfg.fullIsa = true))

/-- HALTED (rule R134): it is the only state in which the core does not step; nothing wakes it except
reset; all state survives. That a run of steps from it stays at the same state is the model's reading of
rule R70 (log entry 6, DEDUCED). What the host access port may do there is rule R33 (decision D6 of the
spec) and rule R34 (decision D24), with log entry 8 (DEDUCED): any accepted request that is no reset
leaves the run state, halt cause, PC, IR and COND as they are (a host write changes memory or a register,
a host read nothing). -/
def Obligations.HaltedIsLeftOnlyByReset : Prop :=
  (∀ s : State, (∃ t, request .step s = some t) ↔ s.runState ≠ .halted) ∧
  (∀ s : State, s.runState = .halted →
    (∀ n, RunsTo n s s) ∧
    (∀ (q : Request) (t : State), request q s = some t →
      (q = .reset ∨ (∃ o, q = .resetAt o)) ∨
      (t.runState = .halted ∧ t.haltCause = s.haltCause ∧ t.pc = s.pc ∧ t.ir = s.ir ∧ t.cond = s.cond ∧
        ((∃ a v, q = .writeMem a v ∧ t.regs = s.regs) ∨ (∃ r v, q = .writeReg r v ∧ t.mem = s.mem) ∨
          (∃ p, q = .read p ∧ t = s)))))

/-- In the base configuration memory is constant over every run of steps, whatever the program
(20_memory.md section 4). -/
def Obligations.BaseConfigurationMemoryConstant : Prop :=
  ∀ (n : Nat) (s t : State), s.cfg.fullIsa = false → RunsTo n s t → t.mem = s.mem

/-- A run has at most one end (40_fetch_and_dispatch.md, decision D23 of the spec): the state in which it
first is HALTED is the only one it ends in. That steps go on from there and change nothing is the model's
reading of rule R70 (log entry 6, DEDUCED). -/
def Obligations.RunEndIsUnique : Prop :=
  ∀ s t t' : State, EndsIn s t → EndsIn s t' → t = t'

/-- A machine whose memory is all zero executes no-ops for ever, wrapping at the top (30_encoding.md
section 5): after n steps only PC has moved, by n modulo 2^16, and it is still RUNNING. -/
def Obligations.ZeroMemoryRunsForever : Prop :=
  ∀ (n : Nat) (s : State), s.runState = .running → s.cfg.opcodeMap = conventionalOpcodes →
    (∀ a, s.memRead a = 0) →
    ∃ t, RunsTo n s t ∧ t.runState = .running ∧ t.pc = BitVec.ofNat 16 (s.pc.toNat + n) ∧
      t.cond = s.cond ∧ t.haltCause = s.haltCause ∧ SameRegs s t ∧ SameMemory s t

/-! ## Memory's form, the invariant, reset and the host -/

/-- The model's memory list is canonical (log entry 1): two lists in the form that give every word alike
are equal, so the bytes of the representation are not observable. -/
def Obligations.CanonicalMemoriesWithEqualWordsAreEqual : Prop :=
  ∀ m m' : Memory, m.wf = true → m'.wf = true → (∀ a, m.readWord a = m'.readWord a) → m = m'

/-- The invariant holds after a reset, whatever the parameters. -/
def Obligations.InvHoldsAfterReset : Prop :=
  ∀ c : Config, (State.resetWith c).Inv

/-- Every step keeps the invariant: canonical memory; halt cause NONE exactly while RUNNING, HALT_TRAP
only with FULL_ISA; PC, COND and IR untouched before the first step; COND at NONE only where reset put
it there (10_state.md sections 3, 4 and 8). -/
def Obligations.StepKeepsInv : Prop :=
  ∀ s t : State, s.Inv → step s = .next t → t.Inv

/-- Every accepted request of the outside world keeps the invariant too, host writes and resets among
them. -/
def Obligations.AcceptedRequestsKeepInv : Prop :=
  ∀ (q : Request) (s t : State), s.Inv → request q s = some t → t.Inv

/-- So every state that accepted requests lead to, in any order and from any machine's reset, meets the
invariant (10_state.md section 8, 70_reset_and_hazards.md section 2). -/
def Obligations.ReachableStatesMeetInv : Prop :=
  ∀ s : State, Reachable s → s.Inv

/-- The reset request, in any state (10_state.md section 7, 70_reset_and_hazards.md section 1; decisions
D4, D5, D9, D22 of the spec): every piece of state gets its reset value; by default ORIGIN is 0x3000 and
COND NONE. `started` is the model's own bit (log entry 5, DESIGN CHOICE), and so is its reset value. -/
def Obligations.ResetGivesEveryResetValue : Prop :=
  (∀ s : State, ∃ t, request .reset s = some t ∧ (∀ r, t.reg r = 0) ∧ (∀ a, t.memRead a = 0) ∧
    t.pc = s.cfg.origin ∧ (s.cfg.condReset = .none → t.cond = .none) ∧
    (s.cfg.condReset = .zro → t.cond = .zro) ∧ t.runState = .running ∧ t.haltCause = .none ∧ t.ir = 0 ∧
    t.started = false ∧ t.cfg = s.cfg) ∧
  request .reset State.reset = some State.reset ∧ State.reset.pc = 0x3000 ∧ State.reset.cond = .none

/-- The host access port (10_state.md section 8, decision D6 of the spec; log entry 5): a write is
accepted exactly before the first step or in HALTED, and changes the one word or register it names. -/
def Obligations.HostWritesOnlyWhenNotStepping : Prop :=
  (∀ (s : State) (a v : Word), s.mem.wf = true →
    ((s.started = false ∨ s.runState = .halted) → ∃ t, request (.writeMem a v) s = some t ∧
      StoresWord a v s t) ∧
    (s.started = true → s.runState = .running → request (.writeMem a v) s = none)) ∧
  (∀ (s : State) (r : Reg) (v : Word),
    ((s.started = false ∨ s.runState = .halted) → ∃ t, request (.writeReg r v) s = some t ∧
      (∀ q, t.reg q = if q = r then v else s.reg q) ∧ t.cond = s.cond ∧ t.pc = s.pc ∧ SameControl s t ∧
      SameMemory s t) ∧
    (s.started = true → s.runState = .running → request (.writeReg r v) s = none))

/-- The host access port's reads (10_state.md section 8, decisions D6 and D24 of the spec; log entries 5
and 8): every piece of state is readable before the first step and in HALTED, with the value it holds and
no effect; once a step was taken and while RUNNING, none is. -/
def Obligations.HostReadsAllStateOnlyWhenNotStepping : Prop :=
  (∀ s : State, s.started = false ∨ s.runState = .halted →
    (∀ r, s.hostRead (.reg r) = some (.word (s.reg r))) ∧
    (∀ a, s.hostRead (.word a) = some (.word (s.memRead a))) ∧
    s.hostRead .pc = some (.word s.pc) ∧ s.hostRead .ir = some (.word s.ir) ∧
    s.hostRead .cond = some (.cond s.cond) ∧ s.hostRead .runState = some (.runState s.runState) ∧
    s.hostRead .haltCause = some (.haltCause s.haltCause) ∧
    ∀ q, request (.read q) s = some s) ∧
  (∀ (s : State) (q : HostItem), s.started = true → s.runState = .running →
    s.hostRead q = none ∧ request (.read q) s = none)

/-- The host's reads miss no state (10_state.md sections 6 and 8: "read all state", and beyond what they
read there is none): two states with canonical memories and open ports that answer every read alike
differ at most in what is no state of the spec's list, the model's first-step mark (log entry 5) and the
parameters, which are fixed (log entry 2). -/
def Obligations.HostReadsDetermineTheState : Prop :=
  ∀ s t : State, s.mem.wf = true → t.mem.wf = true →
    (s.started = false ∨ s.runState = .halted) → (∀ q, s.hostRead q = t.hostRead q) →
    t = { s with started := t.started, cfg := t.cfg }

/-- The boot order (70_reset_and_hazards.md section 2; decisions D5, D6 of the spec): a loader that takes
its origin from an image's first word resets with it and places the rest from there up, wrapping; every
write is accepted, PC is at the origin, and every other word is zero. `started` is the model's own bit
(log entry 5, DESIGN CHOICE). -/
def Obligations.BootImageIsPlacedAtItsOrigin : Prop :=
  ∀ (s : State) (origin : Word) (ws : List Word), ws.length ≤ 65536 →
    ∃ t, requests (bootImage (origin :: ws)) s = some t ∧ t.pc = origin ∧ t.cfg.origin = origin ∧
      t.runState = .running ∧ t.started = false ∧ (∀ r, t.reg r = 0) ∧
      (∀ k, (h : k < ws.length) → t.memRead (origin + BitVec.ofNat 16 k) = ws[k]) ∧
      (∀ a, (∀ k < ws.length, a ≠ origin + BitVec.ofNat 16 k) → t.memRead a = 0)
end

