-- ==== Sys2Proof/Laws/State.lean ====
section
/-! SUPPORT. One lemma per field per named update of the state, so that no later proof unfolds a record
update; and what each update makes a register and a memory word read as. -/

namespace Sys2Proof.Machine

/-- A register reads the value written to it; every other register reads as before (rule R10). -/
@[simp] theorem RegFile.get_set (f : RegFile) (r : Reg) (v : Word) (q : Reg) :
    (f.set r v).get q = if q = r then v else f.get q := by
  cases r <;> cases q <;> rfl

/-- Two register files that read alike are equal. -/
theorem RegFile.ext_of_get {f g : RegFile} (h : ∀ r, f.get r = g.get r) : f = g := by
  cases f; cases g
  have h0 := h .r0; have h1 := h .r1; have h2 := h .r2; have h3 := h .r3
  have h4 := h .r4; have h5 := h .r5; have h6 := h .r6; have h7 := h .r7
  simp only [RegFile.get] at h0 h1 h2 h3 h4 h5 h6 h7
  subst_vars; rfl

/-! ### setReg -/

@[simp] theorem State.setReg_regs (s : State) (r : Reg) (v : Word) : (s.setReg r v).regs = s.regs.set r v := rfl
@[simp] theorem State.setReg_pc (s : State) (r : Reg) (v : Word) : (s.setReg r v).pc = s.pc := rfl
@[simp] theorem State.setReg_cond (s : State) (r : Reg) (v : Word) : (s.setReg r v).cond = s.cond := rfl
@[simp] theorem State.setReg_runState (s : State) (r : Reg) (v : Word) : (s.setReg r v).runState = s.runState := rfl
@[simp] theorem State.setReg_haltCause (s : State) (r : Reg) (v : Word) : (s.setReg r v).haltCause = s.haltCause := rfl
@[simp] theorem State.setReg_ir (s : State) (r : Reg) (v : Word) : (s.setReg r v).ir = s.ir := rfl
@[simp] theorem State.setReg_mem (s : State) (r : Reg) (v : Word) : (s.setReg r v).mem = s.mem := rfl
@[simp] theorem State.setReg_started (s : State) (r : Reg) (v : Word) : (s.setReg r v).started = s.started := rfl
@[simp] theorem State.setReg_cfg (s : State) (r : Reg) (v : Word) : (s.setReg r v).cfg = s.cfg := rfl
@[simp] theorem State.setReg_reg (s : State) (r : Reg) (v : Word) (q : Reg) :
    (s.setReg r v).reg q = if q = r then v else s.reg q := RegFile.get_set s.regs r v q
@[simp] theorem State.setReg_memRead (s : State) (r : Reg) (v : Word) (b : Word) : (s.setReg r v).memRead b = s.memRead b := rfl

/-! ### setPc -/

@[simp] theorem State.setPc_regs (s : State) (a : Word) : (s.setPc a).regs = s.regs := rfl
@[simp] theorem State.setPc_pc (s : State) (a : Word) : (s.setPc a).pc = a := rfl
@[simp] theorem State.setPc_cond (s : State) (a : Word) : (s.setPc a).cond = s.cond := rfl
@[simp] theorem State.setPc_runState (s : State) (a : Word) : (s.setPc a).runState = s.runState := rfl
@[simp] theorem State.setPc_haltCause (s : State) (a : Word) : (s.setPc a).haltCause = s.haltCause := rfl
@[simp] theorem State.setPc_ir (s : State) (a : Word) : (s.setPc a).ir = s.ir := rfl
@[simp] theorem State.setPc_mem (s : State) (a : Word) : (s.setPc a).mem = s.mem := rfl
@[simp] theorem State.setPc_started (s : State) (a : Word) : (s.setPc a).started = s.started := rfl
@[simp] theorem State.setPc_cfg (s : State) (a : Word) : (s.setPc a).cfg = s.cfg := rfl
@[simp] theorem State.setPc_reg (s : State) (a : Word) (q : Reg) : (s.setPc a).reg q = s.reg q := rfl
@[simp] theorem State.setPc_memRead (s : State) (a : Word) (b : Word) : (s.setPc a).memRead b = s.memRead b := rfl

/-! ### setCond -/

@[simp] theorem State.setCond_regs (s : State) (f : Cond) : (s.setCond f).regs = s.regs := rfl
@[simp] theorem State.setCond_pc (s : State) (f : Cond) : (s.setCond f).pc = s.pc := rfl
@[simp] theorem State.setCond_cond (s : State) (f : Cond) : (s.setCond f).cond = f := rfl
@[simp] theorem State.setCond_runState (s : State) (f : Cond) : (s.setCond f).runState = s.runState := rfl
@[simp] theorem State.setCond_haltCause (s : State) (f : Cond) : (s.setCond f).haltCause = s.haltCause := rfl
@[simp] theorem State.setCond_ir (s : State) (f : Cond) : (s.setCond f).ir = s.ir := rfl
@[simp] theorem State.setCond_mem (s : State) (f : Cond) : (s.setCond f).mem = s.mem := rfl
@[simp] theorem State.setCond_started (s : State) (f : Cond) : (s.setCond f).started = s.started := rfl
@[simp] theorem State.setCond_cfg (s : State) (f : Cond) : (s.setCond f).cfg = s.cfg := rfl
@[simp] theorem State.setCond_reg (s : State) (f : Cond) (q : Reg) : (s.setCond f).reg q = s.reg q := rfl
@[simp] theorem State.setCond_memRead (s : State) (f : Cond) (b : Word) : (s.setCond f).memRead b = s.memRead b := rfl

/-! ### memWrite -/

@[simp] theorem State.memWrite_regs (s : State) (a v : Word) : (s.memWrite a v).regs = s.regs := rfl
@[simp] theorem State.memWrite_pc (s : State) (a v : Word) : (s.memWrite a v).pc = s.pc := rfl
@[simp] theorem State.memWrite_cond (s : State) (a v : Word) : (s.memWrite a v).cond = s.cond := rfl
@[simp] theorem State.memWrite_runState (s : State) (a v : Word) : (s.memWrite a v).runState = s.runState := rfl
@[simp] theorem State.memWrite_haltCause (s : State) (a v : Word) : (s.memWrite a v).haltCause = s.haltCause := rfl
@[simp] theorem State.memWrite_ir (s : State) (a v : Word) : (s.memWrite a v).ir = s.ir := rfl
@[simp] theorem State.memWrite_mem (s : State) (a v : Word) : (s.memWrite a v).mem = s.mem.writeWord a v := rfl
@[simp] theorem State.memWrite_started (s : State) (a v : Word) : (s.memWrite a v).started = s.started := rfl
@[simp] theorem State.memWrite_cfg (s : State) (a v : Word) : (s.memWrite a v).cfg = s.cfg := rfl
@[simp] theorem State.memWrite_reg (s : State) (a v : Word) (q : Reg) : (s.memWrite a v).reg q = s.reg q := rfl

/-! ### halt -/

@[simp] theorem State.halt_regs (s : State) (c : HaltCause) : (s.halt c).regs = s.regs := rfl
@[simp] theorem State.halt_pc (s : State) (c : HaltCause) : (s.halt c).pc = s.pc := rfl
@[simp] theorem State.halt_cond (s : State) (c : HaltCause) : (s.halt c).cond = s.cond := rfl
@[simp] theorem State.halt_runState (s : State) (c : HaltCause) : (s.halt c).runState = .halted := rfl
@[simp] theorem State.halt_haltCause (s : State) (c : HaltCause) : (s.halt c).haltCause = c := rfl
@[simp] theorem State.halt_ir (s : State) (c : HaltCause) : (s.halt c).ir = s.ir := rfl
@[simp] theorem State.halt_mem (s : State) (c : HaltCause) : (s.halt c).mem = s.mem := rfl
@[simp] theorem State.halt_started (s : State) (c : HaltCause) : (s.halt c).started = s.started := rfl
@[simp] theorem State.halt_cfg (s : State) (c : HaltCause) : (s.halt c).cfg = s.cfg := rfl
@[simp] theorem State.halt_reg (s : State) (c : HaltCause) (q : Reg) : (s.halt c).reg q = s.reg q := rfl
@[simp] theorem State.halt_memRead (s : State) (c : HaltCause) (b : Word) : (s.halt c).memRead b = s.memRead b := rfl

/-! ### fetch -/

@[simp] theorem State.fetch_regs (s : State) : (s.fetch).regs = s.regs := rfl
@[simp] theorem State.fetch_pc (s : State) : (s.fetch).pc = s.pc + 1 := rfl
@[simp] theorem State.fetch_cond (s : State) : (s.fetch).cond = s.cond := rfl
@[simp] theorem State.fetch_runState (s : State) : (s.fetch).runState = s.runState := rfl
@[simp] theorem State.fetch_haltCause (s : State) : (s.fetch).haltCause = s.haltCause := rfl
@[simp] theorem State.fetch_ir (s : State) : (s.fetch).ir = s.memRead s.pc := rfl
@[simp] theorem State.fetch_mem (s : State) : (s.fetch).mem = s.mem := rfl
@[simp] theorem State.fetch_started (s : State) : (s.fetch).started = true := rfl
@[simp] theorem State.fetch_cfg (s : State) : (s.fetch).cfg = s.cfg := rfl
@[simp] theorem State.fetch_reg (s : State) (q : Reg) : (s.fetch).reg q = s.reg q := rfl
@[simp] theorem State.fetch_memRead (s : State) (b : Word) : (s.fetch).memRead b = s.memRead b := rfl

/-! ### updateFlags -/

@[simp] theorem State.updateFlags_regs (s : State) (v : Word) : (s.updateFlags v).regs = s.regs := rfl
@[simp] theorem State.updateFlags_pc (s : State) (v : Word) : (s.updateFlags v).pc = s.pc := rfl
@[simp] theorem State.updateFlags_cond (s : State) (v : Word) : (s.updateFlags v).cond = condOf v := rfl
@[simp] theorem State.updateFlags_runState (s : State) (v : Word) : (s.updateFlags v).runState = s.runState := rfl
@[simp] theorem State.updateFlags_haltCause (s : State) (v : Word) : (s.updateFlags v).haltCause = s.haltCause := rfl
@[simp] theorem State.updateFlags_ir (s : State) (v : Word) : (s.updateFlags v).ir = s.ir := rfl
@[simp] theorem State.updateFlags_mem (s : State) (v : Word) : (s.updateFlags v).mem = s.mem := rfl
@[simp] theorem State.updateFlags_started (s : State) (v : Word) : (s.updateFlags v).started = s.started := rfl
@[simp] theorem State.updateFlags_cfg (s : State) (v : Word) : (s.updateFlags v).cfg = s.cfg := rfl
@[simp] theorem State.updateFlags_reg (s : State) (v : Word) (q : Reg) : (s.updateFlags v).reg q = s.reg q := rfl
@[simp] theorem State.updateFlags_memRead (s : State) (v : Word) (b : Word) : (s.updateFlags v).memRead b = s.memRead b := rfl

/-! ### writeResult -/

@[simp] theorem State.writeResult_regs (s : State) (r : Reg) (v : Word) : (s.writeResult r v).regs = s.regs.set r v := rfl
@[simp] theorem State.writeResult_pc (s : State) (r : Reg) (v : Word) : (s.writeResult r v).pc = s.pc := rfl
@[simp] theorem State.writeResult_cond (s : State) (r : Reg) (v : Word) : (s.writeResult r v).cond = condOf v := rfl
@[simp] theorem State.writeResult_runState (s : State) (r : Reg) (v : Word) : (s.writeResult r v).runState = s.runState := rfl
@[simp] theorem State.writeResult_haltCause (s : State) (r : Reg) (v : Word) : (s.writeResult r v).haltCause = s.haltCause := rfl
@[simp] theorem State.writeResult_ir (s : State) (r : Reg) (v : Word) : (s.writeResult r v).ir = s.ir := rfl
@[simp] theorem State.writeResult_mem (s : State) (r : Reg) (v : Word) : (s.writeResult r v).mem = s.mem := rfl
@[simp] theorem State.writeResult_started (s : State) (r : Reg) (v : Word) : (s.writeResult r v).started = s.started := rfl
@[simp] theorem State.writeResult_cfg (s : State) (r : Reg) (v : Word) : (s.writeResult r v).cfg = s.cfg := rfl
@[simp] theorem State.writeResult_reg (s : State) (r : Reg) (v : Word) (q : Reg) :
    (s.writeResult r v).reg q = if q = r then v else s.reg q := RegFile.get_set s.regs r v q
@[simp] theorem State.writeResult_memRead (s : State) (r : Reg) (v : Word) (b : Word) : (s.writeResult r v).memRead b = s.memRead b := rfl

/-! ### resetWith -/

@[simp] theorem State.resetWith_pc (c : Config) : (State.resetWith c).pc = c.origin := rfl
@[simp] theorem State.resetWith_cond (c : Config) : (State.resetWith c).cond = condAtReset c.condReset := rfl
@[simp] theorem State.resetWith_runState (c : Config) : (State.resetWith c).runState = .running := rfl
@[simp] theorem State.resetWith_haltCause (c : Config) : (State.resetWith c).haltCause = .none := rfl
@[simp] theorem State.resetWith_ir (c : Config) : (State.resetWith c).ir = 0 := rfl
@[simp] theorem State.resetWith_mem (c : Config) : (State.resetWith c).mem = [] := rfl
@[simp] theorem State.resetWith_started (c : Config) : (State.resetWith c).started = false := rfl
@[simp] theorem State.resetWith_cfg (c : Config) : (State.resetWith c).cfg = c := rfl
@[simp] theorem State.resetWith_reg (c : Config) (q : Reg) : (State.resetWith c).reg q = 0 := by
  cases q <;> rfl
@[simp] theorem State.resetWith_memRead (c : Config) (a : Word) : (State.resetWith c).memRead a = 0 := by
  show wordOfBytes 0 0 = 0
  decide

end Sys2Proof.Machine
end

