-- ==== Sys2Proof/Laws/Memory.lean ====
section
/-! SUPPORT. The laws of memory: the canonical form is kept, a word reads back what was last written to
it, and a write changes no other word (rules R37, R38). -/

namespace Sys2Proof.Machine

/-! ## Bytes -/

/-- A canonical list is canonical from any lower bound. -/
theorem Memory.wfFrom_mono {lo lo' : Nat} {m : Memory} (h : Memory.wfFrom lo' m = true) (hl : lo ≤ lo') :
    Memory.wfFrom lo m = true := by
  cases m with
  | nil => rfl
  | cons c rest =>
    obtain ⟨k, b⟩ := c
    simp only [Memory.wfFrom, Bool.and_eq_true, decide_eq_true_eq] at h ⊢
    exact ⟨⟨⟨by omega, h.1.1.2⟩, h.1.2⟩, h.2⟩

/-- A key below every listed one reads as an unlisted byte. -/
theorem Memory.readByte_below {lo a : Nat} {m : Memory} (h : Memory.wfFrom lo m = true) (ha : a < lo) :
    m.readByte a = Memory.unlisted := by
  induction m generalizing lo with
  | nil => rfl
  | cons c rest ih =>
    obtain ⟨k, b⟩ := c
    simp only [Memory.wfFrom, Bool.and_eq_true, decide_eq_true_eq] at h
    have hk : k ≠ a := by omega
    simp only [Memory.readByte, if_neg hk]
    exact ih h.2 (by omega)

/-- Putting a byte before a canonical rest keeps the form. -/
theorem Memory.put_wfFrom {lo a : Nat} {b : Byte} {rest : Memory} (h : Memory.wfFrom (a + 1) rest = true)
    (hlo : lo ≤ a) (ha : a < Memory.size) : Memory.wfFrom lo (Memory.put a b rest) = true := by
  unfold Memory.put
  split
  · exact Memory.wfFrom_mono h (by omega)
  · rename_i hb
    simp [Memory.wfFrom, hlo, ha, h, hb]

/-- What a put byte reads as, and that it hides nothing else. -/
theorem Memory.readByte_put {a c : Nat} {b : Byte} {rest : Memory} (h : Memory.wfFrom (a + 1) rest = true) :
    (Memory.put a b rest).readByte c = if c = a then b else rest.readByte c := by
  unfold Memory.put
  split
  · rename_i hb
    split
    · rename_i hc
      rw [hb, Memory.readByte_below h (by omega)]
    · rfl
  · simp only [Memory.readByte, eq_comm]

/-- Writing a byte keeps the canonical form. -/
theorem Memory.writeByte_wfFrom {lo a : Nat} {b : Byte} {m : Memory} (h : Memory.wfFrom lo m = true)
    (hlo : lo ≤ a) (ha : a < Memory.size) : Memory.wfFrom lo (m.writeByte a b) = true := by
  induction m generalizing lo with
  | nil => exact Memory.put_wfFrom rfl hlo ha
  | cons c rest ih =>
    obtain ⟨k, v⟩ := c
    have hc := h
    simp only [Memory.wfFrom, Bool.and_eq_true, decide_eq_true_eq] at h
    simp only [Memory.writeByte]
    split
    · refine Memory.put_wfFrom ?_ hlo ha
      simp only [Memory.wfFrom, Bool.and_eq_true, decide_eq_true_eq]
      exact ⟨⟨⟨by omega, h.1.1.2⟩, h.1.2⟩, h.2⟩
    · split
      · rename_i hak
        exact Memory.put_wfFrom (hak ▸ h.2) hlo ha
      · simp only [Memory.wfFrom, Bool.and_eq_true, decide_eq_true_eq]
        exact ⟨h.1, ih h.2 (by omega)⟩

/-- A byte reads back what was written; every other byte reads as before. -/
theorem Memory.readByte_writeByte {lo a c : Nat} {b : Byte} {m : Memory} (h : Memory.wfFrom lo m = true) :
    (m.writeByte a b).readByte c = if c = a then b else m.readByte c := by
  induction m generalizing lo with
  | nil => exact Memory.readByte_put rfl
  | cons e rest ih =>
    obtain ⟨k, v⟩ := e
    simp only [Memory.wfFrom, Bool.and_eq_true, decide_eq_true_eq] at h
    simp only [Memory.writeByte]
    split
    · rename_i hak
      refine Memory.readByte_put ?_
      simp only [Memory.wfFrom, Bool.and_eq_true, decide_eq_true_eq]
      exact ⟨⟨⟨by omega, h.1.1.2⟩, h.1.2⟩, h.2⟩
    · split
      · rename_i hak
        subst hak
        rw [Memory.readByte_put h.2]
        by_cases hc : c = a
        · simp [hc]
        · simp [Memory.readByte, hc, Ne.symm hc]
      · simp only [Memory.readByte, ih h.2]
        by_cases hkc : k = c
        · have : c ≠ a := by omega
          simp [hkc, this]
        · simp [hkc]

/-! ## Words -/

theorem Memory.key_lt_size (a : Word) : Memory.key a + 1 < Memory.size := by
  have := a.isLt
  simp only [Memory.key, Memory.size]
  omega

theorem Memory.key_inj {a b : Word} : Memory.key a = Memory.key b ↔ a = b := by
  simp only [Memory.key]
  constructor
  · intro h
    exact BitVec.eq_of_toNat_eq (by omega)
  · rintro rfl
    rfl

/-- A word is its two bytes. -/
@[simp] theorem wordOfBytes_bytes (v : Word) : wordOfBytes (v.extractLsb' 8 8) (v.extractLsb' 0 8) = v := by
  apply BitVec.eq_of_toNat_eq
  have := v.isLt
  simp only [wordOfBytes, BitVec.toNat_append, BitVec.extractLsb'_toNat, Nat.shiftRight_zero]
  rw [Nat.shiftLeft_eq, Nat.shiftRight_eq_div_pow, Nat.mul_comm, ← Nat.two_pow_add_eq_or_of_lt (by omega)]
  omega

/-- `MemWrite` keeps the canonical form. -/
theorem Memory.writeWord_wf {m : Memory} (h : m.wf = true) (a v : Word) : (m.writeWord a v).wf = true := by
  have hk := Memory.key_lt_size a
  exact Memory.writeByte_wfFrom (Memory.writeByte_wfFrom h (Nat.zero_le _) (by omega)) (Nat.zero_le _) hk

/-- `MemRead` after `MemWrite`: the word written, and every other word as before. -/
theorem Memory.readWord_writeWord {m : Memory} (h : m.wf = true) (a v b : Word) :
    (m.writeWord a v).readWord b = if b = a then v else m.readWord b := by
  have hk := Memory.key_lt_size a
  have h1 : Memory.wfFrom 0 (m.writeByte (Memory.key a) (v.extractLsb' 8 8)) = true :=
    Memory.writeByte_wfFrom h (Nat.zero_le _) (by omega)
  simp only [Memory.readWord, Memory.writeWord, Memory.readByte_writeByte h1, Memory.readByte_writeByte h]
  by_cases hb : b = a
  · subst hb
    simp
  · have hne : Memory.key b ≠ Memory.key a := fun e => hb (Memory.key_inj.mp e)
    simp only [Memory.key] at hne ⊢
    have e1 : 2 * b.toNat ≠ 2 * a.toNat + 1 := by omega
    have e2 : 2 * b.toNat + 1 ≠ 2 * a.toNat := by omega
    simp [hb, hne, e1, e2]

/-- The same of the state's own access. -/
theorem State.memRead_memWrite {s : State} (h : s.mem.wf = true) (a v b : Word) :
    (s.memWrite a v).memRead b = if b = a then v else s.memRead b :=
  Memory.readWord_writeWord h a v b

/-- Reset's memory is canonical. -/
theorem State.resetWith_mem_wf (c : Config) : (State.resetWith c).mem.wf = true := rfl

end Sys2Proof.Machine
end

