-- ==== Sys2Proof/Laws/Ops.lean ====
section
/-! SUPPORT. One lemma for each shared operation that says all it can do, to be cited instead of
unfolding it. -/

namespace Sys2Proof.Machine

/-- The three cases of rule R80. -/
theorem condOf_cases (v : Word) :
    (v = 0#16 ∧ condOf v = .zro) ∨ (v ≠ 0#16 ∧ v.getLsbD 15 = true ∧ condOf v = .neg) ∨
    (v ≠ 0#16 ∧ v.getLsbD 15 = false ∧ condOf v = .pos) := by
  unfold condOf
  by_cases h : v = 0#16
  · exact .inl ⟨h, by simp [h]⟩
  · cases hb : v.getLsbD 15
    · exact .inr (.inr ⟨h, rfl, by simp [h]⟩)
    · exact .inr (.inl ⟨h, rfl, by simp [h]⟩)

/-- The updater never leaves COND at NONE (rule R16). -/
theorem condOf_ne_none (v : Word) : condOf v ≠ .none := by
  rcases condOf_cases v with ⟨-, h⟩ | ⟨-, -, h⟩ | ⟨-, -, h⟩ <;> rw [h] <;> decide

/-- An opcode with a handler has its effect (rule R73). -/
theorem dispatch_handled {o : Opcode} {s : State} (h : hasHandler s.cfg o = true) (e : State) :
    dispatch o s e = e := if_pos h

/-- An opcode without one raises UnsupportedOpcode (rules R73, R120). -/
theorem dispatch_unhandled {o : Opcode} {s : State} (h : hasHandler s.cfg o = false) (e : State) :
    dispatch o s e = raiseUnsupportedOpcode s := if_neg (by simp [h])

/-- A dispatch is one of the two. -/
theorem dispatch_cases (o : Opcode) (s e : State) :
    (hasHandler s.cfg o = true ∧ dispatch o s e = e) ∨
    (hasHandler s.cfg o = false ∧ dispatch o s e = raiseUnsupportedOpcode s) := by
  cases h : hasHandler s.cfg o
  · exact .inr ⟨rfl, dispatch_unhandled h e⟩
  · exact .inl ⟨rfl, dispatch_handled h e⟩

/-- TRAP's second half is a halt or a jump (rule R111). -/
theorem State.trapThrough_cases (s : State) (v : Word) :
    (v = s.cfg.haltTrapvect.setWidth 16 ∧ s.trapThrough v = s.halt .haltTrap) ∨
    (v ≠ s.cfg.haltTrapvect.setWidth 16 ∧ s.trapThrough v = s.setPc (s.memRead v)) := by
  unfold State.trapThrough
  by_cases h : v = s.cfg.haltTrapvect.setWidth 16
  · exact .inl ⟨h, if_pos h⟩
  · exact .inr ⟨h, if_neg h⟩

/-- LEA's write sets the flags or does not (rule R110). -/
theorem State.writeAddress_cases (s : State) (d : Reg) (v : Word) :
    (s.cfg.leaSetsFlags = true ∧ s.writeAddress d v = s.writeResult d v) ∨
    (s.cfg.leaSetsFlags = false ∧ s.writeAddress d v = s.setReg d v) := by
  unfold State.writeAddress
  cases h : s.cfg.leaSetsFlags <;> simp

/-- The opcode of the decoded instruction is the one the map gives the word's high nibble (rule R62). -/
theorem decode_opcode (m : OpcodeMap) (w : Word) : (decode m w).opcode = m.lookup (Field.opcode w) := by
  unfold decode
  cases m.lookup (Field.opcode w) <;> simp only [] <;> (try split) <;> rfl

/-- An instruction whose opcode has no handler does nothing but raise UnsupportedOpcode (rule R120). -/
theorem exec_unhandled {i : Instr} {s : State} (h : hasHandler s.cfg i.opcode = false) :
    exec i s = .next (raiseUnsupportedOpcode s) := by
  cases i <;>
    first
      | exact congrArg _ (dispatch_unhandled h _)
      | rfl
      | simp [Instr.opcode, hasHandler] at h

/-- The shapes an instruction's effect can have. -/
inductive Effect (i : Instr) (s : State) : State → Prop
  /-- No handler: the one exception. -/
  | unsupported : hasHandler s.cfg i.opcode = false → Effect i s (raiseUnsupportedOpcode s)
  /-- A value in the destination, and its flag. -/
  | result (d : Reg) (v : Word) : hasHandler s.cfg i.opcode = true → i.destination = some d →
      i.writesFlags s.cfg = true → Effect i s (s.writeResult d v)
  /-- A value in the destination, and no flag: LEA when `LEA_SETS_FLAGS` is off. -/
  | address (d : Reg) (v : Word) : s.cfg.fullIsa = true → s.cfg.leaSetsFlags = false →
      i.opcode = .lea → i.destination = some d → Effect i s (s.setReg d v)
  /-- A new PC: BR taken, JMP. -/
  | jump (a : Word) : i.opcode = .br ∨ i.opcode = .jmp → Effect i s (s.setPc a)
  /-- Nothing: BR not taken. -/
  | stay : i.opcode = .br → Effect i s s
  /-- A word in memory. -/
  | store (a v : Word) : s.cfg.fullIsa = true → storeAddress i s = some a → Effect i s (s.memWrite a v)
  /-- A new PC and the old one in R7: JSR, JSRR, TRAP. -/
  | link (a : Word) : s.cfg.fullIsa = true → i.destination = some .r7 →
      i.opcode = .jsr ∨ i.opcode = .trap → Effect i s ((s.setPc a).setReg .r7 s.pc)
  /-- The halting TRAP. -/
  | haltTrap : s.cfg.fullIsa = true → i = .trap (s.cfg.haltTrapvect.setWidth 16) →
      Effect i s ((s.setReg .r7 s.pc).halt .haltTrap)

/-- What an instruction can do, said once for all nineteen. -/
theorem exec_effect {i : Instr} {s t : State} (h : exec i s = .next t) : Effect i s t := by
  cases hh : hasHandler s.cfg i.opcode with
  | false => rw [exec_unhandled hh] at h; cases h; exact .unsupported hh
  | true =>
    cases i with
    | addR d _ _ => cases h; exact .result d _ hh rfl rfl
    | addI d _ _ => cases h; exact .result d _ hh rfl rfl
    | andR d _ _ => cases h; exact .result d _ hh rfl rfl
    | andI d _ _ => cases h; exact .result d _ hh rfl rfl
    | br n z p off =>
      simp only [exec, execBr] at h
      cases h
      split
      · exact .jump _ (.inl rfl)
      · exact .stay rfl
    | jmp b => cases h; exact .jump _ (.inr rfl)
    | ld d _ =>
      simp only [exec, execLd, dispatch_handled (o := .ld) hh] at h
      cases h; exact .result d _ hh rfl rfl
    | ldr d _ _ =>
      simp only [exec, execLdr, dispatch_handled (o := .ldr) hh] at h
      cases h; exact .result d _ hh rfl rfl
    | ldi d _ =>
      simp only [exec, execLdi, dispatch_handled (o := .ldi) hh] at h
      cases h; exact .result d _ hh rfl rfl
    | notR d _ =>
      simp only [exec, execNotR, dispatch_handled (o := .not) hh] at h
      cases h; exact .result d _ hh rfl rfl
    | lea d off =>
      simp only [exec, execLea, dispatch_handled (o := .lea) hh] at h
      cases h
      rcases s.writeAddress_cases d (alu .pass (s.pcRelative off) 0) with ⟨hl, e⟩ | ⟨hl, e⟩
      · rw [e]; exact .result d _ hh rfl hl
      · rw [e]; exact .address d _ hh hl rfl rfl
    | st _ _ =>
      simp only [exec, execSt, dispatch_handled (o := .st) hh] at h
      cases h; exact .store _ _ hh rfl
    | str _ _ _ =>
      simp only [exec, execStr, dispatch_handled (o := .str) hh] at h
      cases h; exact .store _ _ hh rfl
    | sti _ _ =>
      simp only [exec, execSti, dispatch_handled (o := .sti) hh] at h
      cases h; exact .store _ _ hh rfl
    | jsr _ =>
      simp only [exec, execJsr, dispatch_handled (o := .jsr) hh] at h
      cases h; exact .link _ hh rfl (.inl rfl)
    | jsrr _ =>
      simp only [exec, execJsrr, dispatch_handled (o := .jsr) hh] at h
      cases h; exact .link _ hh rfl (.inl rfl)
    | trap v =>
      simp only [exec, execTrap, dispatch_handled (o := .trap) hh] at h
      cases h
      rcases (s.setReg .r7 s.pc).trapThrough_cases v with ⟨hv, e⟩ | ⟨-, e⟩
      · rw [e]; exact .haltTrap hh (congrArg Instr.trap hv)
      · rw [e]
        exact Effect.link (i := .trap v) (s := s) (s.memRead v) hh rfl (.inr rfl)
    | rti => cases hh
    | res => cases hh

/-- What a step can do: nothing in HALTED; in RUNNING, fetch and then the decoded instruction. -/
theorem step_cases {s t : State} (h : step s = .next t) :
    (s.runState = .halted ∧ t = s) ∨ (s.runState = .running ∧ exec s.fetch.decoded s.fetch = .next t) := by
  unfold step at h
  cases hr : s.runState with
  | halted => rw [hr] at h; cases h; exact .inl ⟨rfl, rfl⟩
  | running => rw [hr] at h; exact .inr ⟨rfl, h⟩

/-- A host read answers exactly while the port is open, and then the value of the piece of state. -/
theorem State.hostRead_eq_some {s : State} {q : HostItem} {v : HostValue} :
    s.hostRead q = some v ↔ s.hostPortOpen = true ∧ v = s.item q := by
  unfold State.hostRead
  cases s.hostPortOpen <;> simp [eq_comm]

/-- The port is open before the first step and in HALTED (rule R33). -/
theorem State.hostPortOpen_iff {s : State} :
    s.hostPortOpen = true ↔ s.started = false ∨ s.runState = .halted := by
  simp [State.hostPortOpen]

/-- What an accepted request can do (rules R24, R33, R34, R70, R140). -/
theorem request_cases {q : Request} {s t : State} (h : request q s = some t) :
    (q = .reset ∧ t = s.doReset) ∨ (∃ o, q = .resetAt o ∧ t = s.doResetAt o) ∨
    (q = .step ∧ s.runState = .running ∧ step s = .next t) ∨
    (∃ a v, q = .writeMem a v ∧ s.hostPortOpen = true ∧ t = s.memWrite a v) ∨
    (∃ r v, q = .writeReg r v ∧ s.hostPortOpen = true ∧ t = s.setReg r v) ∨
    (∃ p, q = .read p ∧ s.hostPortOpen = true ∧ t = s) := by
  cases q with
  | reset => simp only [request, Option.some.injEq] at h; exact .inl ⟨rfl, h.symm⟩
  | resetAt o => simp only [request, Option.some.injEq] at h; exact .inr (.inl ⟨o, rfl, h.symm⟩)
  | step =>
    refine .inr (.inr (.inl ⟨rfl, ?_⟩))
    simp only [request] at h
    cases hr : s.runState with
    | halted => simp [hr] at h
    | running =>
      refine ⟨rfl, ?_⟩
      cases hs : step s with
      | next u => simp only [hr, hs, Option.some.injEq] at h; rw [h]
      | fault f => simp [hr, hs] at h
      | refused f => simp [hr, hs] at h
  | writeMem a v =>
    refine .inr (.inr (.inr (.inl ⟨a, v, rfl, ?_⟩)))
    cases hw : s.hostPortOpen <;> simp [request, hw] at h
    exact ⟨rfl, h.symm⟩
  | writeReg r v =>
    refine .inr (.inr (.inr (.inr (.inl ⟨r, v, rfl, ?_⟩))))
    cases hw : s.hostPortOpen <;> simp [request, hw] at h
    exact ⟨rfl, h.symm⟩
  | read p =>
    refine .inr (.inr (.inr (.inr (.inr ⟨p, rfl, ?_⟩))))
    simp only [request, Option.map_eq_some_iff] at h
    obtain ⟨v, hv, rfl⟩ := h
    exact ⟨(State.hostRead_eq_some.mp hv).1, rfl⟩

/-- The host's run of the machine is the one claims speak of. -/
theorem core_run_eq_next {n : Nat} {s t : State} : core.run n s = .next t ↔ RunsTo n s t := by
  induction n generalizing s with
  | zero =>
    constructor
    · intro h; cases h; rfl
    · rintro rfl; rfl
  | succ n ih =>
    have e : core.run (n + 1) s =
        Host.Outcome.rec (motive := fun _ => Host.Outcome core.State core.Fault core.Refusal)
          (fun u => core.run n u) (fun r => .fault r) (fun r => .refused r) (step s) := by
      cases h : step s <;> simp [Host.Core.run, core, h]
    rw [e]
    cases h : step s with
    | next u => simpa [RunsTo, h] using ih
    | fault r => simp [RunsTo, h]
    | refused r => simp [RunsTo, h]

end Sys2Proof.Machine
end

