-- ==== Sys2Proof/Laws/PerInstr.lean ====
section
/-! SUPPORT. Statements made per instruction. Family EncodesRow: the word of every instruction, under the
conventional opcode map, carries its row's fixed bits of spec/opcode_table.json (the row's mask and
match), whatever its operands. -/

namespace Sys2Proof.Laws.EncodesRow

/-- The mask of the instruction's row of spec/opcode_table.json. -/
def rowMask : Instr → Word
  | .addR _ _ _ => 0xF020
  | .addI _ _ _ => 0xF020
  | .andR _ _ _ => 0xF020
  | .andI _ _ _ => 0xF020
  | .br _ _ _ _ => 0xF000
  | .jmp _ => 0xF000
  | .ld _ _ => 0xF000
  | .st _ _ => 0xF000
  | .jsr _ => 0xF800
  | .jsrr _ => 0xF800
  | .ldr _ _ _ => 0xF000
  | .str _ _ _ => 0xF000
  | .notR _ _ => 0xF000
  | .ldi _ _ => 0xF000
  | .sti _ _ => 0xF000
  | .lea _ _ => 0xF000
  | .trap _ => 0xF000
  | .rti => 0xF000
  | .res => 0xF000

/-- The match of the instruction's row of spec/opcode_table.json. -/
def rowMatch : Instr → Word
  | .addR _ _ _ => 0x1000
  | .addI _ _ _ => 0x1020
  | .andR _ _ _ => 0x5000
  | .andI _ _ _ => 0x5020
  | .br _ _ _ _ => 0x0000
  | .jmp _ => 0xC000
  | .ld _ _ => 0x2000
  | .st _ _ => 0x3000
  | .jsr _ => 0x4800
  | .jsrr _ => 0x4000
  | .ldr _ _ _ => 0x6000
  | .str _ _ _ => 0x7000
  | .notR _ _ => 0x9000
  | .ldi _ _ => 0xA000
  | .sti _ _ => 0xB000
  | .lea _ _ => 0xE000
  | .trap _ => 0xF000
  | .rti => 0x8000
  | .res => 0xD000

/-- The encoding of the instruction carries its row's fixed bits. -/
def Statement (i : Instr) : Prop := encode conventionalOpcodes i &&& rowMask i = rowMatch i

/-- A field that lies outside a mask vanishes under it. -/
theorem place_masked {lo n : Nat} (f : BitVec n) {mask : Word} (h : ∀ k < n, mask.getLsbD (lo + k) = false) :
    place lo f &&& mask = 0#16 := by
  refine BitVec.eq_of_getLsbD_eq fun k hk => ?_
  by_cases hlo : k < lo
  · simp [place, hlo]
  · by_cases hn : k - lo < n
    · have := h (k - lo) hn
      rw [show lo + (k - lo) = k by omega] at this
      simp [this]
    · have : f.getLsbD (k - lo) = false := BitVec.getLsbD_of_ge f _ (by omega)
      simp [place, this]

/-- A mask distributes over the fields of a word. -/
theorem or_masked (x y mask : Word) : (x ||| y) &&& mask = (x &&& mask) ||| (y &&& mask) :=
  BitVec.eq_of_getLsbD_eq fun k _ => by simp [Bool.and_or_distrib_right]

theorem addR (dst src1 src2 : Reg) : Statement (.addR dst src1 src2) := by
  have hn : conventionalOpcodes.number .add = 1#4 := by decide
  simp (disch := decide) only [Statement, encode, rowMask, rowMatch, hn, or_masked, place_masked]
  decide

theorem addI (dst src1 : Reg) (imm5 : Word) : Statement (.addI dst src1 imm5) := by
  have hn : conventionalOpcodes.number .add = 1#4 := by decide
  simp (disch := decide) only [Statement, encode, rowMask, rowMatch, hn, or_masked, place_masked]
  decide

theorem andR (dst src1 src2 : Reg) : Statement (.andR dst src1 src2) := by
  have hn : conventionalOpcodes.number .and = 5#4 := by decide
  simp (disch := decide) only [Statement, encode, rowMask, rowMatch, hn, or_masked, place_masked]
  decide

theorem andI (dst src1 : Reg) (imm5 : Word) : Statement (.andI dst src1 imm5) := by
  have hn : conventionalOpcodes.number .and = 5#4 := by decide
  simp (disch := decide) only [Statement, encode, rowMask, rowMatch, hn, or_masked, place_masked]
  decide

theorem br (n z p : Bool) (offset9 : Word) : Statement (.br n z p offset9) := by
  have hn : conventionalOpcodes.number .br = 0#4 := by decide
  simp (disch := decide) only [Statement, encode, rowMask, rowMatch, hn, or_masked, place_masked]
  decide

theorem jmp (baseR : Reg) : Statement (.jmp baseR) := by
  have hn : conventionalOpcodes.number .jmp = 12#4 := by decide
  simp (disch := decide) only [Statement, encode, rowMask, rowMatch, hn, or_masked, place_masked]
  decide

theorem ld (dst : Reg) (off : Word) : Statement (.ld dst off) := by
  have hn : conventionalOpcodes.number .ld = 2#4 := by decide
  simp (disch := decide) only [Statement, encode, rowMask, rowMatch, hn, or_masked, place_masked]
  decide

theorem st (src : Reg) (off : Word) : Statement (.st src off) := by
  have hn : conventionalOpcodes.number .st = 3#4 := by decide
  simp (disch := decide) only [Statement, encode, rowMask, rowMatch, hn, or_masked, place_masked]
  decide

theorem jsr (off : Word) : Statement (.jsr off) := by
  have hn : conventionalOpcodes.number .jsr = 4#4 := by decide
  simp (disch := decide) only [Statement, encode, rowMask, rowMatch, hn, or_masked, place_masked]
  decide

theorem jsrr (baseR : Reg) : Statement (.jsrr baseR) := by
  have hn : conventionalOpcodes.number .jsr = 4#4 := by decide
  simp (disch := decide) only [Statement, encode, rowMask, rowMatch, hn, or_masked, place_masked]
  decide

theorem ldr (dst baseR : Reg) (off : Word) : Statement (.ldr dst baseR off) := by
  have hn : conventionalOpcodes.number .ldr = 6#4 := by decide
  simp (disch := decide) only [Statement, encode, rowMask, rowMatch, hn, or_masked, place_masked]
  decide

theorem str (src baseR : Reg) (off : Word) : Statement (.str src baseR off) := by
  have hn : conventionalOpcodes.number .str = 7#4 := by decide
  simp (disch := decide) only [Statement, encode, rowMask, rowMatch, hn, or_masked, place_masked]
  decide

theorem notR (dst src : Reg) : Statement (.notR dst src) := by
  have hn : conventionalOpcodes.number .not = 9#4 := by decide
  simp (disch := decide) only [Statement, encode, rowMask, rowMatch, hn, or_masked, place_masked]
  decide

theorem ldi (dst : Reg) (off : Word) : Statement (.ldi dst off) := by
  have hn : conventionalOpcodes.number .ldi = 10#4 := by decide
  simp (disch := decide) only [Statement, encode, rowMask, rowMatch, hn, or_masked, place_masked]
  decide

theorem sti (src : Reg) (off : Word) : Statement (.sti src off) := by
  have hn : conventionalOpcodes.number .sti = 11#4 := by decide
  simp (disch := decide) only [Statement, encode, rowMask, rowMatch, hn, or_masked, place_masked]
  decide

theorem lea (dst : Reg) (off : Word) : Statement (.lea dst off) := by
  have hn : conventionalOpcodes.number .lea = 14#4 := by decide
  simp (disch := decide) only [Statement, encode, rowMask, rowMatch, hn, or_masked, place_masked]
  decide

theorem trap (v : Word) : Statement (.trap v) := by
  have hn : conventionalOpcodes.number .trap = 15#4 := by decide
  simp (disch := decide) only [Statement, encode, rowMask, rowMatch, hn, or_masked, place_masked]
  decide

theorem rti : Statement (.rti) := by
  have hn : conventionalOpcodes.number .rti = 8#4 := by decide
  simp only [Statement, encode, rowMask, rowMatch, hn]
  decide

theorem res : Statement (.res) := by
  have hn : conventionalOpcodes.number .res = 13#4 := by decide
  simp only [Statement, encode, rowMask, rowMatch, hn]
  decide

end Sys2Proof.Laws.EncodesRow
end

