-- ==== Sys2Proof/Tests/Slice0.lean ====
section
/-! SUPPORT. Small tests of single steps, with the expected results taken from the spec's own vectors
(95_test_vectors.md, named W, S, F, A, N, B, J, U, X there), the decoding of written-out words, the terms
that WellFormed refuses, and a witness for the hypotheses of every statement that has some. -/

namespace Sys2Proof.Tests

open Sys2Proof Sys2Proof.Machine

/-! ## Helpers -/

/-- Reset state of the base configuration. -/
def base : State := State.reset

/-- Reset state with FULL_ISA. -/
def full : State := State.resetWith { defaultConfig with fullIsa := true }

/-- `s` with a word where the next step fetches. -/
def put (s : State) (w : Word) : State := s.memWrite s.pc w

/-- Whether one step answers a next state with a property. -/
def after (s : State) (p : State → Bool) : Bool :=
  match step s with
  | .next t => p t
  | .fault _ => false
  | .refused _ => false

/-! ## WellFormed refuses -/

theorem test_wf_addI_16 : (Instr.addI .r0 .r0 0x0010).wf = false := by decide
theorem test_wf_andI_minus_17 : (Instr.andI .r0 .r0 0xFFEF).wf = false := by decide
theorem test_wf_br_256 : (Instr.br true true true 0x0100).wf = false := by decide
theorem test_wf_ld_minus_257 : (Instr.ld .r0 0xFEFF).wf = false := by decide
theorem test_wf_st_256 : (Instr.st .r0 0x0100).wf = false := by decide
theorem test_wf_ldi_256 : (Instr.ldi .r0 0x0100).wf = false := by decide
theorem test_wf_sti_256 : (Instr.sti .r0 0x0100).wf = false := by decide
theorem test_wf_lea_256 : (Instr.lea .r0 0x0100).wf = false := by decide
theorem test_wf_jsr_1024 : (Instr.jsr 0x0400).wf = false := by decide
theorem test_wf_ldr_32 : (Instr.ldr .r0 .r0 0x0020).wf = false := by decide
theorem test_wf_str_minus_33 : (Instr.str .r0 .r0 0xFFDF).wf = false := by decide
theorem test_wf_trap_256 : (Instr.trap 0x0100).wf = false := by decide
theorem test_wf_ends : (Instr.addI .r0 .r0 0xFFF0).wf = true ∧ (Instr.addI .r0 .r0 0x000F).wf = true := by decide
theorem test_map_without_add : OpcodeMap.wf (Vector.replicate 16 Opcode.br) = false := by decide
theorem test_map_conventional : conventionalOpcodes.wf = true := by decide

/-! ## Decoding of words written out from the formats -/

theorem test_decode_addR : decode conventionalOpcodes 0b0001101011000100 = .addR .r5 .r3 .r4 := by decide
theorem test_decode_addR_unused : decode conventionalOpcodes 0b0001101011011100 = .addR .r5 .r3 .r4 := by decide
theorem test_decode_addI : decode conventionalOpcodes 0b0001000000111111 = .addI .r0 .r0 0xFFFF := by decide
theorem test_decode_andR : decode conventionalOpcodes 0b0101011001000010 = .andR .r3 .r1 .r2 := by decide
theorem test_decode_andI : decode conventionalOpcodes 0b0101010001110000 = .andI .r2 .r1 0xFFF0 := by decide
theorem test_decode_br : decode conventionalOpcodes 0b0000110111111111 = .br true true false 0xFFFF := by decide
theorem test_decode_nop : decode conventionalOpcodes 0x0000 = .br false false false 0 := by decide
theorem test_decode_jmp_unused : decode conventionalOpcodes 0b1100111011111111 = .jmp .r3 := by decide
theorem test_decode_ld : decode conventionalOpcodes 0b0010000000000110 = .ld .r0 6 := by decide
theorem test_decode_st : decode conventionalOpcodes 0b0011001000000100 = .st .r1 4 := by decide
theorem test_decode_jsr : decode conventionalOpcodes 0b0100110000000000 = .jsr 0xFC00 := by decide
theorem test_decode_jsrr : decode conventionalOpcodes 0b0100011111111111 = .jsrr .r7 := by decide
theorem test_decode_ldr : decode conventionalOpcodes 0b0110011010100000 = .ldr .r3 .r2 0xFFE0 := by decide
theorem test_decode_str : decode conventionalOpcodes 0b0111001010111111 = .str .r1 .r2 0xFFFF := by decide
theorem test_decode_not : decode conventionalOpcodes 0b1001001000111111 = .notR .r1 .r0 := by decide
theorem test_decode_ldi : decode conventionalOpcodes 0b1010100000000001 = .ldi .r4 1 := by decide
theorem test_decode_sti : decode conventionalOpcodes 0b1011001000000001 = .sti .r1 1 := by decide
theorem test_decode_lea : decode conventionalOpcodes 0b1110010100000000 = .lea .r2 0xFF00 := by decide
theorem test_decode_trap : decode conventionalOpcodes 0b1111101000100101 = .trap 0x25 := by decide
theorem test_decode_rti : decode conventionalOpcodes 0b1000101010101010 = .rti := by decide
theorem test_decode_res : decode conventionalOpcodes 0b1101101010101010 = .res := by decide
theorem test_table_word : decodeTableWord 16 0xC1C0 = some (.jmp .r7) := by decide
theorem test_truncated : decodeBytes conventionalOpcodes [0x10] = .error .truncated := rfl
theorem test_encode_not : encode conventionalOpcodes (.notR .r1 .r0) = 0x923F := by decide
theorem test_encode_br : encode conventionalOpcodes (.br true true false 0xFFFF) = 0x0DFF := by decide
/-- S4, S8, S9, S10: `sext_5` and `sext_9` at their ends. -/
theorem test_sext : sext 5 0x10 = 0xFFF0 ∧ sext 9 0x0FF = 0x00FF ∧ sext 9 0x100 = 0xFF00 ∧ sext 9 0x1FF = 0xFFFF := by
  decide

/-! ## Flags, memory and reset -/

/-- F1 to F5. -/
theorem test_condOf : condOf 0 = .zro ∧ condOf 1 = .pos ∧ condOf 0x7FFF = .pos ∧ condOf 0x8000 = .neg ∧
    condOf 0xFFFF = .neg := by decide
theorem test_write_zero_removes : (Memory.writeWord (Memory.writeWord [] 0xFFFF 0x1234) 0xFFFF 0) = [] := by decide
theorem test_write_sorted : Memory.writeWord (Memory.writeWord [] 2 0x0102) 1 0x0304 =
    [(2, 3), (3, 4), (4, 1), (5, 2)] := by decide
/-- The table of rule R23. -/
theorem test_reset : base.pc = 0x3000 ∧ base.cond = .none ∧ base.runState = .running ∧ base.haltCause = .none ∧
    base.ir = 0 := by decide

/-! ## Steps -/

/-- W10: `ADD R0, R0, #-1` with R0 = 2. -/
theorem test_addI : after (put (base.setReg .r0 2) 0x103F) (fun t =>
    t.reg .r0 == 1 && t.cond == .pos && t.pc == 0x3001 && t.runState == .running) = true := by decide
/-- A1: signed overflow wraps. -/
theorem test_addI_overflow : after (put (base.setReg .r1 0x7FFF) 0x1461) (fun t =>
    t.reg .r2 == 0x8000 && t.cond == .neg) = true := by decide
/-- A3: one register three times. -/
theorem test_addR_same : after (put (base.setReg .r1 0x1234) 0x1241) (fun t =>
    t.reg .r1 == 0x2468 && t.cond == .pos) = true := by decide
/-- A6: unused bits set. -/
theorem test_addR : after (put ((base.setReg .r3 5).setReg .r4 0xFFFB) 0x1ADC) (fun t =>
    t.reg .r5 == 0 && t.cond == .zro) = true := by decide
/-- N3. -/
theorem test_andR : after (put ((base.setReg .r1 0xF0F0).setReg .r2 0x0FF0) 0x5642) (fun t =>
    t.reg .r3 == 0x00F0 && t.cond == .pos) = true := by decide
/-- N1: the immediate is sign-extended. -/
theorem test_andI : after (put (base.setReg .r1 0xFFFF) 0x5470) (fun t =>
    t.reg .r2 == 0xFFF0 && t.cond == .neg) = true := by decide
/-- B5: a branch to itself. -/
theorem test_br_back : after (put (base.setCond .neg) 0x0DFF) (fun t => t.pc == 0x3000) = true := by decide
/-- B8: COND = NONE never matches. -/
theorem test_br_none : after (put base 0x0E05) (fun t => t.pc == 0x3001) = true := by decide
/-- B10: fetch and target wrap. -/
theorem test_br_wrap : after (put ((base.setPc 0xFFFF).setCond .pos) 0x0201) (fun t => t.pc == 0x0001) = true := by
  decide
/-- J3: unused bits all 1. -/
theorem test_jmp : after (put (base.setReg .r3 0x4000) 0xCEFF) (fun t => t.pc == 0x4000 && t.cond == .none) = true := by
  decide
/-- U3: TRAP x25 in the base configuration. -/
theorem test_trap_base : after (put base 0xF025) (fun t =>
    t.runState == .halted && t.haltCause == .unsupportedOpcode && t.ir == 0xF025 && t.pc == 0x3001 &&
    t.reg .r7 == 0) = true := by decide
/-- U2: the event. -/
theorem test_diag : stepDiag (put base 0xD000) =
    some { severity := .fatal, kind := .unsupportedOpcode, pc := 0x3001, ir := 0xD000 } := by decide
/-- U5: a step in HALTED. -/
theorem test_step_halted : after (base.halt .unsupportedOpcode) (fun t =>
    t == base.halt .unsupportedOpcode) = true := by decide
/-- X1. -/
theorem test_ld : after (put (full.memWrite 0x3007 5) 0x2006) (fun t => t.reg .r0 == 5 && t.cond == .pos) = true := by
  decide
/-- X2. -/
theorem test_st : after (put ((full.setPc 0x3003).setReg .r1 0xFFFB) 0x3204) (fun t =>
    t.memRead 0x3008 == 0xFFFB && t.pc == 0x3004) = true := by decide
/-- X3. -/
theorem test_jsr : after (put full 0x4810) (fun t => t.pc == 0x3011 && t.reg .r7 == 0x3001) = true := by decide
/-- X4: the base is read before R7 is written. -/
theorem test_jsrr_r7 : after (put (full.setReg .r7 0x5000) 0x41C0) (fun t =>
    t.pc == 0x5000 && t.reg .r7 == 0x3001) = true := by decide
/-- X5. -/
theorem test_ldr : after (put ((full.setReg .r2 0x3008).memWrite 0x3008 0xFFFB) 0x6680) (fun t =>
    t.reg .r3 == 0xFFFB && t.cond == .neg) = true := by decide
/-- X6. -/
theorem test_str : after (put ((full.setReg .r1 7).setReg .r2 0x4000) 0x72BF) (fun t =>
    t.memRead 0x3FFF == 7 && t.cond == .none) = true := by decide
/-- X7. -/
theorem test_not : after (put (full.setReg .r0 5) 0x923F) (fun t => t.reg .r1 == 0xFFFA && t.cond == .neg) = true := by
  decide
/-- X8. -/
theorem test_ldi : after (put ((full.memWrite 0x3002 0x4000).setReg .r4 9) 0xA801) (fun t =>
    t.reg .r4 == 0 && t.cond == .zro) = true := by decide
/-- X9. -/
theorem test_sti : after (put ((full.memWrite 0x3002 0x4000).setReg .r1 0x1234) 0xB201) (fun t =>
    t.memRead 0x4000 == 0x1234 && t.memRead 0x3002 == 0x4000) = true := by decide
/-- X10, with `LEA_SETS_FLAGS`. -/
theorem test_lea : after (put (full.setPc 0x3004) 0xE403) (fun t => t.reg .r2 == 0x3008 && t.cond == .pos) = true := by
  decide
/-- X10, without it. -/
theorem test_lea_no_flags :
    after (put { full with pc := 0x3004, cfg := { full.cfg with leaSetsFlags := false } } 0xE403) (fun t =>
      t.reg .r2 == 0x3008 && t.cond == .none) = true := by decide
/-- X11. -/
theorem test_trap_halt : after (put (full.setPc 0x3006) 0xF025) (fun t =>
    t.reg .r7 == 0x3007 && t.pc == 0x3007 && t.runState == .halted && t.haltCause == .haltTrap) = true := by decide
/-- X12. -/
theorem test_trap_vector : after (put (full.memWrite 0x20 0x0400) 0xF020) (fun t =>
    t.reg .r7 == 0x3001 && t.pc == 0x0400 && t.runState == .running) = true := by decide
/-- X14: RTI with FULL_ISA. -/
theorem test_rti : after (put full 0x8000) (fun t =>
    t.runState == .halted && t.haltCause == .unsupportedOpcode && t.ir == 0x8000) = true := by decide
/-- Rule R112: RES with FULL_ISA. -/
theorem test_res : after (put full 0xDFFF) (fun t =>
    t.runState == .halted && t.haltCause == .unsupportedOpcode && t.pc == 0x3001) = true := by decide
/-- A host write is refused once a step was taken (rule R33). -/
theorem test_host_write_refused : after base (fun t => request (.writeMem 0 1) t == none) = true := by decide
/-- A host read too (rule R33); the status port shows the same PC all the while. -/
theorem test_host_read_refused : after base (fun t =>
    t.hostRead .pc == none && request (.read .pc) t == none && t.status.pc == 0x3001) = true := by decide
/-- R24, R33: a read in HALTED, of the word that caused it. -/
theorem test_host_read_halted : after (put base 0xD000) (fun t =>
    t.hostRead .ir == some (.word 0xD000) && t.hostRead .haltCause == some (.haltCause .unsupportedOpcode) &&
    request (.read .ir) t == some t) = true := by decide
/-- The word the host places is the one that runs. -/
theorem test_withFetchWord : after (base.withFetchWord 16 0x1021) (fun t => t.reg .r0 == 1 && t.ir == 0x1021) = true := by
  decide
/-- Rule R40: the high byte first. -/
theorem test_image : imageWords [0x30, 0x00, 0x10, 0x3F] = [0x3000, 0x103F] := by decide

/-! ## Witnesses: states and operands that meet the hypotheses of the statements -/

/-- A halted state. -/
def stopped : State := base.halt .unsupportedOpcode

theorem witness_StepOnlyWhileRunning : stopped.runState = .halted ∧ base.runState = .running := by decide
theorem witness_StepRunsFetchedInstruction :
    base.runState = .running ∧ decode base.cfg.opcodeMap (base.memRead base.pc) = .br false false false 0 := by decide
theorem witness_HandlersNeverFail :
    hasHandler base.cfg (Instr.addR .r0 .r1 .r2).opcode = true ∧ hasHandler full.cfg (Instr.trap 0x25).opcode = true := by
  decide
theorem witness_UnsupportedOpcodeHaltsPrecisely :
    (put base 0x2000).runState = .running ∧ (put base 0x2000).cfg.fullIsa = false ∧
    (put base 0x2000).cfg.opcodeMap.lookup (((put base 0x2000).memRead 0x3000).extractLsb 15 12) = .ld ∧
    (put full 0x8FFF).cfg.opcodeMap.lookup (((put full 0x8FFF).memRead 0x3000).extractLsb 15 12) = .rti ∧
    (put full 0xD000).cfg.opcodeMap.lookup (((put full 0xD000).memRead 0x3000).extractLsb 15 12) = .res := by decide
/-- A word for each clause of the next-PC table. -/
theorem witness_NextPcOfBaseInstructions :
    (put base 0x1000).runState = .running ∧
    decode base.cfg.opcodeMap ((put base 0x1000).memRead 0x3000) = .addR .r0 .r0 .r0 ∧
    decode base.cfg.opcodeMap ((put base 0x1030).memRead 0x3000) = .addI .r0 .r0 0xFFF0 ∧
    decode base.cfg.opcodeMap ((put base 0x5000).memRead 0x3000) = .andR .r0 .r0 .r0 ∧
    decode base.cfg.opcodeMap ((put base 0x502F).memRead 0x3000) = .andI .r0 .r0 0x000F ∧
    decode base.cfg.opcodeMap ((put base 0x0300).memRead 0x3000) = .br false false true 0xFF00 ∧
    decode base.cfg.opcodeMap ((put base 0xC1C0).memRead 0x3000) = .jmp .r7 ∧
    hasHandler base.cfg (decode base.cfg.opcodeMap ((put base 0xF025).memRead 0x3000)).opcode = false := by decide
theorem witness_DecodeEncodeRoundTrip :
    conventionalOpcodes.wf = true ∧ (Instr.jsr 0xFC00).wf = true ∧ (Instr.jsr 0x03FF).wf = true ∧
    (Instr.ldr .r0 .r7 0xFFE0).wf = true ∧ (Instr.trap 0x00FF).wf = true := by decide
theorem witness_EncodeDecodeKeepsUsedBits : conventionalOpcodes.wf = true := by decide
theorem witness_UnusedBitsIgnored :
    0x1AC4#16 &&& (decode conventionalOpcodes 0x1AC4).usedBits = 0x1ADC#16 &&& (decode conventionalOpcodes 0x1AC4).usedBits := by
  decide
/-- Both clauses at n = 1 and n = 16. -/
theorem witness_SextReadsTwosComplement :
    ((1#16).toNat < 2 ^ 1 ∧ (1#16).getLsbD (1 - 1) = true) ∧ ((0#16).toNat < 2 ^ 1 ∧ (0#16).getLsbD (1 - 1) = false) ∧
    ((0x8000#16).toNat < 2 ^ 16 ∧ (0x8000#16).getLsbD (16 - 1) = true) ∧
    ((0x7FFF#16).toNat < 2 ^ 16 ∧ (0x7FFF#16).getLsbD (16 - 1) = false) := by decide
theorem witness_PlacedWordIsRunNext :
    base.mem.wf = true ∧ decodeTableWord 16 0xC1C0 = some (.jmp .r7) := by decide
theorem witness_CondWrittenByUpdaterReadByBr :
    (∃ t, exec (.addI .r0 .r0 0) base = .next t ∧ t.cond ≠ base.cond) ∧
    (Instr.jmp .r0).opcode ≠ .br ∧ (∃ t, exec (.jmp .r0) base = .next t) ∧
    (Instr.addI .r0 .r0 0).opcode ≠ .br ∧ (Instr.lea .r0 0).opcode ≠ .br ∧ ∃ t, exec (.lea .r0 0) base = .next t :=
  ⟨⟨_, rfl, by decide⟩, by decide, ⟨_, rfl⟩, by decide, by decide, _, rfl⟩
theorem witness_CondNeverReturnsToNone :
    (base.setCond .neg).cond ≠ .none ∧ ∃ t, RunsTo 1 (base.setCond .neg) t := ⟨by decide, _, _, rfl, rfl⟩
theorem witness_AddWritesSumAndFlags : conventionalOpcodes.lookup ((0x1FFF#16).extractLsb 15 12) = .add := by decide
theorem witness_AndWritesConjunctionAndFlags : conventionalOpcodes.lookup ((0x5000#16).extractLsb 15 12) = .and := by
  decide
theorem witness_BrTakenOnIntersection : conventionalOpcodes.lookup ((0x0FFF#16).extractLsb 15 12) = .br := by decide
theorem witness_JmpGoesToRegister : conventionalOpcodes.lookup ((0xC000#16).extractLsb 15 12) = .jmp := by decide
theorem witness_SubroutineJumpsLinkThroughR7 :
    conventionalOpcodes.lookup ((0x4800#16).extractLsb 15 12) = .jsr ∧ full.cfg.fullIsa = true := by decide
theorem witness_TrapLinksThenHaltsOrVectors :
    conventionalOpcodes.lookup ((0xF0FF#16).extractLsb 15 12) = .trap ∧ full.cfg.fullIsa = true ∧
    0x00FF#16 ≠ full.cfg.haltTrapvect.setWidth 16 := by decide
theorem witness_LdLoadsPcRelative :
    conventionalOpcodes.lookup ((0x2100#16).extractLsb 15 12) = .ld ∧ full.cfg.fullIsa = true := by decide
theorem witness_LdrLoadsBasePlusOffset :
    conventionalOpcodes.lookup ((0x6020#16).extractLsb 15 12) = .ldr ∧ full.cfg.fullIsa = true := by decide
theorem witness_LdiLoadsThroughPointer :
    conventionalOpcodes.lookup ((0xA100#16).extractLsb 15 12) = .ldi ∧ full.cfg.fullIsa = true := by decide
/-- Both settings of `LEA_SETS_FLAGS`. -/
theorem witness_LeaWritesAddress :
    conventionalOpcodes.lookup ((0xE100#16).extractLsb 15 12) = .lea ∧ full.cfg.fullIsa = true ∧
    full.cfg.leaSetsFlags = true ∧
    (State.resetWith { full.cfg with leaSetsFlags := false }).cfg.fullIsa = true ∧
    (State.resetWith { full.cfg with leaSetsFlags := false }).cfg.leaSetsFlags = false := by decide
theorem witness_NotWritesComplementAndFlags :
    conventionalOpcodes.lookup ((0x9000#16).extractLsb 15 12) = .not ∧ full.cfg.fullIsa = true := by decide
theorem witness_StStoresPcRelative :
    conventionalOpcodes.lookup ((0x3100#16).extractLsb 15 12) = .st ∧ full.cfg.fullIsa = true ∧ full.mem.wf = true := by
  decide
theorem witness_StrStoresBasePlusOffset :
    conventionalOpcodes.lookup ((0x7020#16).extractLsb 15 12) = .str ∧ full.cfg.fullIsa = true ∧
    (put full 0x7020).mem.wf = true := by decide
theorem witness_StiStoresThroughPointer :
    conventionalOpcodes.lookup ((0xB100#16).extractLsb 15 12) = .sti ∧ full.cfg.fullIsa = true ∧ full.mem.wf = true := by
  decide
theorem witness_LoadAfterStoreReturnsValue : full.cfg.fullIsa = true ∧ full.mem.wf = true := by decide
theorem witness_StoredWordIsFetchedNext :
    full.runState = .running ∧ full.cfg.fullIsa = true ∧ full.mem.wf = true := by decide
theorem witness_RtiAndResAlwaysUnsupported :
    conventionalOpcodes.lookup ((0x8000#16).extractLsb 15 12) = .rti ∧
    conventionalOpcodes.lookup ((0xD000#16).extractLsb 15 12) = .res := by decide
theorem witness_AnnexUnsupportedInBaseConfiguration :
    base.cfg.fullIsa = false ∧ (Instr.trap 0x25).opcode ≠ .br ∧ (Instr.trap 0x25).opcode ≠ .add ∧
    (Instr.trap 0x25).opcode ≠ .and ∧ (Instr.trap 0x25).opcode ≠ .jmp := by decide
theorem witness_BaseInstructionsIgnoreFullIsa :
    (Instr.br true true true 0).opcode = .br ∧ (Instr.addI .r0 .r0 0).opcode = .add ∧
    (Instr.andR .r0 .r0 .r0).opcode = .and ∧ (Instr.jmp .r0).opcode = .jmp ∧
    ∃ t, exec (.jmp .r0) base = .next t := ⟨rfl, rfl, rfl, rfl, _, rfl⟩
theorem witness_OnlyDestinationRegisterChanges :
    ∃ t, exec (.jsr 0) full = .next t ∧ t.reg .r7 ≠ full.reg .r7 := ⟨_, rfl, by decide⟩
theorem witness_OnlyStoresChangeMemory :
    (full.setReg .r1 7).mem.wf = true ∧
    ∃ t, exec (.st .r1 0xFFFF) (full.setReg .r1 7) = .next t ∧
      t.memRead 0x2FFF ≠ (full.setReg .r1 7).memRead 0x2FFF := ⟨by decide, _, rfl, by decide⟩
theorem witness_OnlyControlTransfersChangePc :
    ∃ t, exec (.jmp .r0) base = .next t ∧ t.pc ≠ base.pc := ⟨_, rfl, by decide⟩
theorem witness_HaltCauseWrittenOnlyWhenHalting :
    ∃ t, step (put full 0xF025) = .next t ∧ t.haltCause ≠ (put full 0xF025).haltCause := ⟨_, rfl, by decide⟩
theorem witness_HaltedIsLeftOnlyByReset :
    stopped.runState = .halted ∧ request (.writeMem 0xFFFF 1) stopped = some (stopped.memWrite 0xFFFF 1) ∧
    request (.writeReg .r7 1) stopped = some (stopped.setReg .r7 1) ∧
    request (.read .cond) stopped = some stopped ∧ request .reset stopped = some base := by decide
theorem witness_BaseConfigurationMemoryConstant : base.cfg.fullIsa = false ∧ ∃ t, RunsTo 1 base t :=
  ⟨rfl, _, _, rfl, rfl⟩
theorem witness_RunEndIsUnique : ∃ t, EndsIn (put base 0xD000) t := ⟨_, rfl, 1, _, rfl, rfl⟩
theorem witness_ZeroMemoryRunsForever :
    base.runState = .running ∧ base.cfg.opcodeMap = conventionalOpcodes ∧ ∀ a, base.memRead a = 0 :=
  ⟨rfl, rfl, fun a => by simp [base, State.reset]⟩
theorem witness_CanonicalMemoriesWithEqualWordsAreEqual :
    Memory.wf (Memory.writeWord [] 0xFFFF 0x00FF) = true ∧ Memory.wf [(131071, 0xFF)] = true ∧
    Memory.readWord [(131071, 0xFF)] 0xFFFF = 0x00FF := by decide
theorem witness_StepKeepsInv : State.reset.Inv ∧ ∃ t, step State.reset = .next t :=
  ⟨⟨by decide, by decide, by decide, by decide, by decide⟩, _, rfl⟩
theorem witness_AcceptedRequestsKeepInv :
    State.reset.Inv ∧ request (.writeReg .r0 2) State.reset = some (State.reset.setReg .r0 2) :=
  ⟨witness_StepKeepsInv.1, by decide⟩
theorem witness_ReachableStatesMeetInv : Reachable ((State.resetWith full.cfg).setReg .r0 2) :=
  .request (.writeReg .r0 2) _ _ (.reset full.cfg) (by decide)
theorem witness_ResetGivesEveryResetValue :
    base.cfg.condReset = .none ∧ (State.resetWith { defaultConfig with condReset := .zro }).cfg.condReset = .zro := by
  decide
theorem witness_HostWritesOnlyWhenNotStepping :
    base.mem.wf = true ∧ base.started = false ∧ stopped.runState = .halted ∧ base.fetch.started = true ∧
    base.fetch.runState = .running := by decide
theorem witness_HostReadsAllStateOnlyWhenNotStepping :
    base.started = false ∧ stopped.runState = .halted ∧ base.fetch.started = true ∧
    base.fetch.runState = .running := by decide
/-- Two states that differ in the first-step mark alone. -/
theorem witness_HostReadsDetermineTheState :
    stopped.mem.wf = true ∧ { stopped with started := true }.mem.wf = true ∧ stopped.runState = .halted ∧
    ∀ q, stopped.hostRead q = { stopped with started := true }.hostRead q :=
  ⟨by decide, by decide, by decide, fun q => by cases q <;> rfl⟩
theorem witness_BootImageIsPlacedAtItsOrigin :
    ([0x103F, 0xD000] : List Word).length ≤ 65536 := by decide

end Sys2Proof.Tests
end

section
/-! The sign extension of rule R7: what its mask is, and that it is the library's `BitVec.signExtend`
of the low `n` bits. -/

namespace Sys2Proof

/-- `(1 <<< n) - 1` is the mask of the low `n` bits, also where the shift wraps at `n = 16`. -/
theorem one_shiftLeft_sub_one (n : Nat) : (1#16 <<< n) - 1#16 = BitVec.ofNat 16 (2 ^ n - 1) := by
  have wrap : (1#16 <<< n) = BitVec.ofNat 16 (2 ^ n) := by
    apply BitVec.eq_of_toNat_eq
    simp [Nat.shiftLeft_eq]
  rw [wrap, BitVec.ofNat_sub_ofNat_of_le _ _ (by decide) Nat.one_le_two_pow]

/-- The mask `sext` ORs in is "all 1s above bit n-1". -/
theorem getLsbD_sextMask (n i : Nat) :
    (0xFFFF#16 &&& ~~~((1#16 <<< n) - 1#16)).getLsbD i = (decide (i < 16) && decide (n ≤ i)) := by
  have ones : 0xFFFF#16 = BitVec.allOnes 16 := rfl
  rw [one_shiftLeft_sub_one, ones, BitVec.allOnes_and, BitVec.getLsbD_not, BitVec.getLsbD_ofNat,
    Nat.testBit_two_pow_sub_one, Bool.not_and, Bool.and_or_distrib_left, Bool.and_not_self, Bool.false_or]
  simp only [← Nat.not_lt, decide_not]

/-- Bit by bit, `sext n` sets the bits from `n` up when bit `n - 1` is set. -/
theorem getLsbD_sext (n i : Nat) (v : Word) :
    (sext n v).getLsbD i = (v.getLsbD i || (v.getLsbD (n - 1) && (decide (i < 16) && decide (n ≤ i)))) := by
  rw [sext]
  split
  case isTrue hs => rw [BitVec.getLsbD_or, getLsbD_sextMask, hs, Bool.true_and]
  case isFalse hs => rw [Bool.eq_false_of_not_eq_true hs, Bool.false_and, Bool.or_false]

/-- A value in the low `n` bits has no bit set from bit `n` up. -/
theorem getLsbD_eq_false_of_toNat_lt {n i : Nat} {v : Word} (hv : v.toNat < 2 ^ n) (hi : n ≤ i) :
    v.getLsbD i = false :=
  Nat.testBit_lt_two_pow (hv.trans_le (Nat.pow_le_pow_right (by decide) hi))

/-- The sign bit of the low `n` bits is bit `n - 1`. -/
theorem msb_setWidth_eq_getLsbD {n : Nat} (hpos : 0 < n) (v : Word) :
    (v.setWidth n).msb = v.getLsbD (n - 1) := by
  simp [BitVec.msb_eq_getLsbD_last, hpos]

/-- Rule R7's OR with ones is two's complement sign extension: below bit `n` both keep `v`'s bits, from
bit `n` up both repeat bit `n - 1`. -/
theorem sext_eq_signExtend {n : Nat} {v : Word} (hpos : 0 < n) (hv : v.toNat < 2 ^ n) :
    sext n v = (v.setWidth n).signExtend 16 := by
  apply BitVec.eq_of_getLsbD_eq
  intro i hi
  rw [getLsbD_sext, BitVec.getLsbD_signExtend, msb_setWidth_eq_getLsbD hpos, BitVec.getLsbD_setWidth]
  by_cases hin : i < n
  · simp [hi, hin]
  · have clear := getLsbD_eq_false_of_toNat_lt hv (Nat.le_of_not_lt hin)
    simp only [clear, hi, hin, Nat.le_of_not_lt hin, decide_true, Bool.and_true, Bool.true_and,
      Bool.false_or, if_false]

/-- A word with bit `n - 1` clear is its own sign extension. -/
theorem sext_of_sign_clear {n : Nat} {v : Word} (hs : v.getLsbD (n - 1) = false) : sext n v = v := by
  simp [sext, hs]

/-- A value of the low `n` bits with bit `n - 1` set stands for that value less `2 ^ n`. -/
theorem toInt_sext_of_sign_set {n : Nat} {v : Word} (hpos : 0 < n) (hn : n ≤ 16) (hv : v.toNat < 2 ^ n)
    (hs : v.getLsbD (n - 1) = true) : (sext n v).toInt = (v.toNat : Int) - 2 ^ n := by
  have negative : (v.setWidth n).msb = true := by rw [msb_setWidth_eq_getLsbD hpos, hs]
  have value : (v.setWidth n).toNat = v.toNat := by rw [BitVec.toNat_setWidth, Nat.mod_eq_of_lt hv]
  rw [sext_eq_signExtend hpos hv, BitVec.toInt_signExtend_of_le hn, BitVec.toInt_eq_msb_cond,
    if_pos negative, value, Nat.cast_pow, Nat.cast_ofNat]

/-- Rule R101's `zext_16(IR[7:0])` keeps the value of the word's low eight bits. -/
theorem toNat_trapvect8 (w : Word) : (Field.trapvect8 w).toNat = w.toNat % 256 := by
  rw [Field.trapvect8, BitVec.toNat_setWidth_of_le (by decide), BitVec.extractLsb_toNat]
  rfl

/-- Settles O11: with bit N-1 set, `sext` is the library's sign extension of the low N bits; with it
clear, `sext` returns its argument. -/
theorem sextReadsTwosComplement : Obligations.SextReadsTwosComplement := by
  unfold Obligations.SextReadsTwosComplement
  exact ⟨fun _ _ hpos hn hv => ⟨toInt_sext_of_sign_set hpos hn hv, sext_of_sign_clear⟩, toNat_trapvect8⟩

end Sys2Proof
end

section
/-! COND (rule R17): how each update of the state meets a change of COND before it, what that makes of an
instruction's effect, and the flag of a value as rule R80 classifies it. -/

namespace Sys2Proof.Machine

/-- The updater's flag is the one rule R80 gives the value read as two's complement. -/
theorem classifies_condOf (v : Word) : Classifies v (condOf v) := by
  have sign : v.getLsbD 15 = decide (v.toInt < 0) :=
    (BitVec.msb_eq_getLsbD_last v).symm.trans BitVec.msb_eq_toInt
  have zero : v.toInt = 0 ↔ v = 0#16 := by rw [← BitVec.toInt_inj, BitVec.toInt_zero]
  rcases condOf_cases v with ⟨hv, hc⟩ | ⟨hv, hb, hc⟩ | ⟨hv, hb, hc⟩
  · have value : v.toInt = 0 := zero.mpr hv
    exact ⟨fun _ => hc, by omega, by omega⟩
  · have negative : v.toInt < 0 := of_decide_eq_true (sign.symm.trans hb)
    exact ⟨by omega, fun _ => hc, by omega⟩
  · have nonneg : ¬v.toInt < 0 := of_decide_eq_false (sign.symm.trans hb)
    exact ⟨fun h => absurd (zero.mp h) hv, fun h => absurd h nonneg, fun _ => hc⟩

/-! ### A change of COND passes through every update but the condition-flag updater -/

section
variable (s : State) (c : Cond)

@[simp] theorem State.setCond_setReg (r : Reg) (v : Word) :
    (s.setCond c).setReg r v = (s.setReg r v).setCond c := rfl
@[simp] theorem State.setCond_setPc (a : Word) : (s.setCond c).setPc a = (s.setPc a).setCond c := rfl
@[simp] theorem State.setCond_memWrite (a v : Word) :
    (s.setCond c).memWrite a v = (s.memWrite a v).setCond c := rfl
@[simp] theorem State.setCond_halt (cause : HaltCause) :
    (s.setCond c).halt cause = (s.halt cause).setCond c := rfl
@[simp] theorem State.setCond_writeResult (d : Reg) (v : Word) :
    (s.setCond c).writeResult d v = s.writeResult d v := rfl
@[simp] theorem State.setCond_pcRelative (off : Word) : (s.setCond c).pcRelative off = s.pcRelative off := rfl
@[simp] theorem State.setCond_basePlus (b : Reg) (off : Word) :
    (s.setCond c).basePlus b off = s.basePlus b off := rfl
@[simp] theorem State.setCond_pointerAt (off : Word) : (s.setCond c).pointerAt off = s.pointerAt off := rfl

@[simp] theorem State.setCond_trapThrough (v : Word) :
    (s.setCond c).trapThrough v = (s.trapThrough v).setCond c := by
  rcases s.trapThrough_cases v with ⟨hv, e⟩ | ⟨hv, e⟩ <;> rw [e]
  · exact if_pos hv
  · exact if_neg hv

@[simp] theorem raiseUnsupportedOpcode_setCond :
    raiseUnsupportedOpcode (s.setCond c) = (raiseUnsupportedOpcode s).setCond c := rfl

/-- LEA's write with the flags hides a change of COND. -/
theorem State.setCond_writeAddress_of_flags (h : s.cfg.leaSetsFlags = true) (d : Reg) (v : Word) :
    (s.setCond c).writeAddress d v = s.writeAddress d v := by
  simp [State.writeAddress, h]

/-- LEA's write without the flags lets it through. -/
theorem State.setCond_writeAddress_of_noFlags (h : s.cfg.leaSetsFlags = false) (d : Reg) (v : Word) :
    (s.setCond c).writeAddress d v = (s.writeAddress d v).setCond c := by
  simp [State.writeAddress, h]

/-- The unsupported path reads no COND, so the change passes through a dispatch whose effect it passes
through. -/
@[simp] theorem dispatch_setCond (o : Opcode) (e : State) :
    dispatch o (s.setCond c) (e.setCond c) = (dispatch o s e).setCond c := by
  rcases dispatch_cases o s e with ⟨h, he⟩ | ⟨h, he⟩ <;> rw [he]
  · exact dispatch_handled (s := s.setCond c) h _
  · exact dispatch_unhandled (s := s.setCond c) h _

/-- An effect that overwrites COND hides the change, where the opcode has a handler. -/
theorem dispatch_setCond_of_handled {o : Opcode} (h : hasHandler s.cfg o = true) (e : State) :
    dispatch o (s.setCond c) e = dispatch o s e :=
  (dispatch_handled (s := s.setCond c) h e).trans (dispatch_handled h e).symm

end

/-! ### The instructions under a change of COND -/

/-- A flag writer with a handler overwrites COND, so it does not see the change. -/
theorem exec_setCond_of_writesFlags {i : Instr} {s : State} (hh : hasHandler s.cfg i.opcode = true)
    (hw : i.writesFlags s.cfg = true) (c : Cond) : exec i (s.setCond c) = exec i s := by
  cases i with
  | addR | addI | andR | andI => rfl
  | ld => exact congrArg Host.Outcome.next (dispatch_setCond_of_handled (o := .ld) s c hh _)
  | ldr => exact congrArg Host.Outcome.next (dispatch_setCond_of_handled (o := .ldr) s c hh _)
  | ldi => exact congrArg Host.Outcome.next (dispatch_setCond_of_handled (o := .ldi) s c hh _)
  | notR => exact congrArg Host.Outcome.next (dispatch_setCond_of_handled (o := .not) s c hh _)
  | lea =>
    simp only [exec, execLea, State.setCond_writeAddress_of_flags s c hw, State.setCond_pcRelative,
      dispatch_setCond_of_handled (o := .lea) s c hh]
  | br | jmp | st | jsr | jsrr | str | sti | trap | rti | res => cases hw

/-- An instruction that neither writes the flags nor is BR leaves COND as it finds it, and nothing else in
its effect depends on COND. -/
theorem exec_setCond_of_not_writesFlags {i : Instr} {s t : State} (hbr : i.opcode ≠ .br)
    (hw : i.writesFlags s.cfg = false) (h : exec i s = .next t) (c : Cond) :
    exec i (s.setCond c) = .next (t.setCond c) := by
  cases i with
  | addR | addI | andR | andI | ld | ldr | ldi | notR => cases hw
  | br => exact absurd rfl hbr
  | jmp | rti | res => cases h; rfl
  | st => cases h; simp [exec, execSt]
  | str => cases h; simp [exec, execStr]
  | sti => cases h; simp [exec, execSti]
  | jsr => cases h; simp [exec, execJsr]
  | jsrr => cases h; simp [exec, execJsrr]
  | trap => cases h; simp [exec, execTrap]
  | lea => cases h; simp [exec, execLea, State.setCond_writeAddress_of_noFlags s c hw]

/-- Rule R17, the write: a COND that changed was written by the updater, with the flag of the destination. -/
theorem exec_cond_changed {i : Instr} {s t : State} (h : exec i s = .next t) (hne : t.cond ≠ s.cond) :
    i.writesFlags s.cfg = true ∧ hasHandler s.cfg i.opcode = true ∧
    ∃ d, i.destination = some d ∧ Classifies (t.reg d) t.cond := by
  cases exec_effect h with
  | result d v hh hd hw => exact ⟨hw, hh, d, hd, by simpa using classifies_condOf v⟩
  | unsupported | address | jump | stay | store | link | haltTrap => exact absurd rfl hne

/-- Rule R17, the read: but for BR, a COND put before an instruction reaches its next state, or is
overwritten there, and changes nothing else. -/
theorem exec_setCond {i : Instr} {s t : State} (hbr : i.opcode ≠ .br) (h : exec i s = .next t) (c : Cond) :
    exec i (s.setCond c) = .next (t.setCond
      (if i.writesFlags s.cfg = true ∧ hasHandler s.cfg i.opcode = true then t.cond else c)) := by
  cases hh : hasHandler s.cfg i.opcode with
  | false =>
    rw [exec_unhandled hh] at h
    cases h
    simpa using exec_unhandled (s := s.setCond c) hh
  | true =>
    cases hw : i.writesFlags s.cfg with
    | true => exact (exec_setCond_of_writesFlags hh hw c).trans h
    | false => simpa using exec_setCond_of_not_writesFlags hbr hw h c

/-- Settles O16: the write half by what an instruction's effect can be, the read half by how each
instruction meets a change of COND. -/
theorem condWrittenByUpdaterReadByBr : Obligations.CondWrittenByUpdaterReadByBr := by
  unfold Obligations.CondWrittenByUpdaterReadByBr
  exact ⟨fun _ _ _ => exec_cond_changed, fun _ _ _ c hbr h => exec_setCond hbr h c⟩

end Sys2Proof.Machine
end

section
/-! PC (rules R75, R88): which instructions can move it once the fetch has, and where BR and JMP put it. -/

namespace Sys2Proof.Machine

/-- In RUNNING a step is the meaning of the word at PC, on the state after its fetch (rules R70 to R73). -/
theorem step_of_running {s : State} (h : s.runState = .running) :
    step s = exec (decode s.cfg.opcodeMap (s.memRead s.pc)) s.fetch := by
  rw [step, h]
  rfl

/-- No instruction faults or is refused (rule R122). -/
theorem exec_completes (i : Instr) (s : State) : ∃ t, exec i s = .next t := by
  cases i <;> exact ⟨_, rfl⟩

/-- BR's intersection of the requested set with the one-hot COND, flag by flag (rule R88): at most one bit
of COND is set, so the test is the test bit of the flag COND names. -/
theorem branchTaken_iff (n z p : Bool) (c : Cond) :
    branchTaken n z p c = true ↔
      (n = true ∧ c = .neg) ∨ (z = true ∧ c = .zro) ∨ (p = true ∧ c = .pos) := by
  cases c with
  | none | pos | zro | neg => revert n z p; decide

/-- PC moves during execute by a control transfer only. -/
theorem exec_pc_unchanged {i : Instr} {s t : State} (h : exec i s = .next t)
    (hi : ¬(i.opcode = .br ∨ i.opcode = .jmp ∨ i.opcode = .jsr ∨ i.opcode = .trap)) : t.pc = s.pc := by
  cases exec_effect h with
  | unsupported | result | address | stay | store | haltTrap => rfl
  | jump a ho => exact absurd (ho.imp_right .inl) hi
  | link a _ _ ho => exact absurd (.inr (.inr ho)) hi

/-- Raising UnsupportedOpcode leaves PC past the word (rule R120), a control transfer's included. -/
theorem exec_pc_of_unhandled {i : Instr} {s t : State} (h : exec i s = .next t)
    (hh : hasHandler s.cfg i.opcode = false) : t.pc = s.pc := by
  rw [exec_unhandled hh] at h
  cases h
  rfl

theorem exec_br_pc {n z p : Bool} {off : Word} {s t : State} (h : exec (.br n z p off) s = .next t) :
    t.pc = if (n = true ∧ s.cond = .neg) ∨ (z = true ∧ s.cond = .zro) ∨ (p = true ∧ s.cond = .pos)
      then s.pc + off else s.pc := by
  cases h
  simp only [← branchTaken_iff]
  exact apply_ite State.pc _ _ _

theorem exec_jmp_pc {b : Reg} {s t : State} (h : exec (.jmp b) s = .next t) : t.pc = s.reg b := by
  cases h
  rfl

/-- Settles O6: after the fetch PC is A + 1; ADD, AND and the unsupported path leave it there, BR and JMP
put it where rules R88 and R89 say. -/
theorem nextPcOfBaseInstructions : Obligations.NextPcOfBaseInstructions := by
  unfold Obligations.NextPcOfBaseInstructions
  intro s running
  obtain ⟨t, ht⟩ := exec_completes (decode s.cfg.opcodeMap (s.memRead s.pc)) s.fetch
  have operate (i : Instr) (ho : i.opcode = .add ∨ i.opcode = .and)
      (hd : decode s.cfg.opcodeMap (s.memRead s.pc) = i) : t.pc = s.pc + 1 := by
    rw [hd] at ht
    exact exec_pc_unchanged ht (by rcases ho with ho | ho <;> rw [ho] <;> decide)
  refine ⟨t, (step_of_running running).trans ht, fun _ _ _ => operate _ (.inl rfl),
    fun _ _ _ => operate _ (.inl rfl), fun _ _ _ => operate _ (.inr rfl),
    fun _ _ _ => operate _ (.inr rfl), ?br, ?jmp, fun noHandler => exec_pc_of_unhandled ht noHandler⟩
  case br =>
    intro n z p off hd
    rw [hd] at ht
    exact exec_br_pc ht
  case jmp =>
    intro b hd
    rw [hd] at ht
    rw [exec_jmp_pc ht, State.fetch_reg]

end Sys2Proof.Machine
end

section
/-! The operate instructions (rules R80 to R83): what the flag updater and a result write change and leave
unchanged, how the words of ADD and AND decode, and what the ALU's sum and conjunction are. -/

namespace Sys2Proof

/-- Zero-padding an `n`-bit field to a word and then applying rule R7's `sext` is the library's sign
extension of the field. -/
theorem sext_setWidth {n : Nat} (hpos : 0 < n) (hn : n ≤ 16) (x : BitVec n) :
    sext n (x.setWidth 16) = x.signExtend 16 := by
  have small : (x.setWidth 16).toNat < 2 ^ n := by
    rw [BitVec.toNat_setWidth_of_le hn]
    exact x.isLt
  rw [sext_eq_signExtend hpos small, BitVec.setWidth_setWidth_of_le x hn, BitVec.setWidth_eq]

theorem Field.imm5_eq_signExtend (w : Word) : Field.imm5 w = (w.extractLsb 4 0).signExtend 16 :=
  sext_setWidth (n := 5) (by decide) (by decide) _

/-- A word of ADD's opcode is in immediate mode exactly when bit 5 is set (rules R57, R82). -/
theorem decode_of_add {m : OpcodeMap} {w : Word} (h : m.lookup (Field.opcode w) = .add) :
    decode m w =
      if Field.mode w then .addI (Field.dst w) (Field.src1 w) ((w.extractLsb 4 0).signExtend 16)
      else .addR (Field.dst w) (Field.src1 w) (Field.src2 w) := by
  rw [decode, h, ← Field.imm5_eq_signExtend]

/-- A word of AND's opcode is in immediate mode exactly when bit 5 is set (rules R57, R83). -/
theorem decode_of_and {m : OpcodeMap} {w : Word} (h : m.lookup (Field.opcode w) = .and) :
    decode m w =
      if Field.mode w then .andI (Field.dst w) (Field.src1 w) ((w.extractLsb 4 0).signExtend 16)
      else .andR (Field.dst w) (Field.src1 w) (Field.src2 w) := by
  rw [decode, h, ← Field.imm5_eq_signExtend]

namespace Machine

theorem State.updateFlags_sameControl (s : State) (v : Word) : SameControl s (s.updateFlags v) :=
  ⟨s.updateFlags_ir v, s.updateFlags_runState v, s.updateFlags_haltCause v, s.updateFlags_started v,
    s.updateFlags_cfg v⟩

theorem State.writeResult_sameControl (s : State) (d : Reg) (v : Word) :
    SameControl s (s.writeResult d v) :=
  ⟨s.writeResult_ir d v, s.writeResult_runState d v, s.writeResult_haltCause d v,
    s.writeResult_started d v, s.writeResult_cfg d v⟩

/-- A result write has exactly the effect rules R80 and R81 give it. -/
theorem State.writeResult_writesResult (s : State) (d : Reg) (v : Word) :
    WritesResult d v s (s.writeResult d v) :=
  ⟨s.writeResult_reg d v, classifies_condOf v, s.writeResult_pc d v, s.writeResult_sameControl d v,
    s.writeResult_memRead d v⟩

theorem State.writeResult_reg_same (s : State) (d : Reg) (v : Word) : (s.writeResult d v).reg d = v := by
  rw [State.writeResult_reg, if_pos rfl]

/-- The ALU's sum is the sum of the two values modulo 2^16: a carry out is lost (rule R82). -/
theorem alu_add_eq_ofNat (x y : Word) : alu .add x y = BitVec.ofNat 16 (x.toNat + y.toNat) :=
  BitVec.add_def x y

/-- Each bit of the ALU's conjunction depends on that bit of the operands only (rule R83). -/
theorem getLsbD_alu_and (x y : Word) (k : Nat) :
    (alu .and x y).getLsbD k = (x.getLsbD k && y.getLsbD k) :=
  BitVec.getLsbD_and

/-- Writing a sum has ADD's effect, in either mode. -/
theorem State.writeResult_add (s : State) (d : Reg) (x y : Word) :
    WritesResult d (BitVec.ofNat 16 (x.toNat + y.toNat)) s (s.writeResult d (alu .add x y)) := by
  rw [← alu_add_eq_ofNat]
  exact s.writeResult_writesResult d _

/-- Writing a conjunction has AND's effect, in either mode. -/
theorem State.writeResult_and {s t : State} {d : Reg} {x y : Word}
    (ht : t = s.writeResult d (alu .and x y)) :
    WritesResult d (t.reg d) s t ∧ ∀ k, (t.reg d).getLsbD k = (x.getLsbD k && y.getLsbD k) := by
  rw [ht, State.writeResult_reg_same]
  exact ⟨s.writeResult_writesResult d _, getLsbD_alu_and x y⟩

/-- Settles O15: the updater writes COND only, and its flag is the value's. -/
theorem updateFlagsClassifies : Obligations.UpdateFlagsClassifies := by
  unfold Obligations.UpdateFlagsClassifies
  exact fun s v => ⟨classifies_condOf v, s.updateFlags_pc v, s.updateFlags_reg v, s.updateFlags_memRead v,
    s.updateFlags_sameControl v⟩

/-- Settles O18: either mode is the write of a sum, read from the state before it. -/
theorem addWritesSumAndFlags : Obligations.AddWritesSumAndFlags := by
  unfold Obligations.AddWritesSumAndFlags
  exact ⟨fun _ _ h => decode_of_add h,
    fun d a b s => ⟨_, rfl, s.writeResult_add d (s.reg a) (s.reg b)⟩,
    fun d a v s => ⟨_, rfl, s.writeResult_add d (s.reg a) v⟩⟩

/-- Settles O19: either mode is the write of a conjunction, read from the state before it. -/
theorem andWritesConjunctionAndFlags : Obligations.AndWritesConjunctionAndFlags := by
  unfold Obligations.AndWritesConjunctionAndFlags
  exact ⟨fun _ _ h => decode_of_and h,
    fun _ a b s => ⟨_, rfl, State.writeResult_and (x := s.reg a) (y := s.reg b) rfl⟩,
    fun _ a v s => ⟨_, rfl, State.writeResult_and (x := s.reg a) (y := v) rfl⟩⟩

end Machine

end Sys2Proof
end

section
/-! The control transfers BR and JMP (rules R88, R89): how their words decode, and the whole next state each
answers. -/

namespace Sys2Proof

theorem Field.offset9_eq_signExtend (w : Word) : Field.offset9 w = (w.extractLsb 8 0).signExtend 16 :=
  sext_setWidth (n := 9) (by decide) (by decide) _

/-- A word of BR's opcode decodes to its three test bits and its offset (rules R58, R61). -/
theorem decode_of_br {m : OpcodeMap} {w : Word} (h : m.lookup (Field.opcode w) = .br) :
    decode m w = .br (Field.n w) (Field.z w) (Field.p w) ((w.extractLsb 8 0).signExtend 16) := by
  rw [decode, h, ← Field.offset9_eq_signExtend]

/-- A word of JMP's opcode decodes to its base register; the other bits are ignored (rule R59). -/
theorem decode_of_jmp {m : OpcodeMap} {w : Word} (h : m.lookup (Field.opcode w) = .jmp) :
    decode m w = .jmp (Field.src1 w) := by
  rw [decode, h]

namespace Machine

/-- A PC-relative target wraps modulo 2^16 (rules R36, R61). -/
theorem State.pcRelative_eq_ofNat (s : State) (off : Word) :
    s.pcRelative off = BitVec.ofNat 16 (s.pc.toNat + off.toNat) :=
  BitVec.add_def s.pc off

/-- BR writes PC and nothing else: the target if it is taken, the PC it finds if it is not (rule R88). -/
theorem exec_br (n z p : Bool) (off : Word) (s : State) :
    exec (.br n z p off) s =
      .next (s.setPc (if branchTaken n z p s.cond then s.pcRelative off else s.pc)) := by
  rw [exec, execBr]
  cases branchTaken n z p s.cond with
  | true => rfl
  | false => rfl

/-- Settles O20: BR's test is the intersection of the requested set with the one-hot COND, and its write is
to PC alone. -/
theorem brTakenOnIntersection : Obligations.BrTakenOnIntersection := by
  unfold Obligations.BrTakenOnIntersection
  refine ⟨fun _ _ h => decode_of_br h, fun n z p off s => ?_⟩
  simp only [exec_br, branchTaken_iff, State.pcRelative_eq_ofNat, State.setPc]

/-- Settles O21: JMP's write is to PC alone, of the base register's value. -/
theorem jmpGoesToRegister : Obligations.JmpGoesToRegister := by
  unfold Obligations.JmpGoesToRegister
  exact ⟨fun _ _ h => decode_of_jmp h, fun _ _ => rfl⟩

end Machine

end Sys2Proof
end

section
/-! The annex's loads, stores and NOT under FULL_ISA (rules R102, R103, R105 to R109): how their words
decode, the one state update each comes down to, and what a store of one word changes and leaves
unchanged. -/

namespace Sys2Proof

theorem Field.offset6_eq_signExtend (w : Word) : Field.offset6 w = (w.extractLsb 5 0).signExtend 16 :=
  sext_setWidth (n := 6) (by decide) (by decide) _

section
variable {m : OpcodeMap} {w : Word}

theorem decode_of_ld (h : m.lookup (Field.opcode w) = .ld) :
    decode m w = .ld (Field.dst w) ((w.extractLsb 8 0).signExtend 16) := by
  rw [decode, h, ← Field.offset9_eq_signExtend]

theorem decode_of_ldr (h : m.lookup (Field.opcode w) = .ldr) :
    decode m w = .ldr (Field.dst w) (Field.src1 w) ((w.extractLsb 5 0).signExtend 16) := by
  rw [decode, h, ← Field.offset6_eq_signExtend]

theorem decode_of_ldi (h : m.lookup (Field.opcode w) = .ldi) :
    decode m w = .ldi (Field.dst w) ((w.extractLsb 8 0).signExtend 16) := by
  rw [decode, h, ← Field.offset9_eq_signExtend]

theorem decode_of_st (h : m.lookup (Field.opcode w) = .st) :
    decode m w = .st (Field.dst w) ((w.extractLsb 8 0).signExtend 16) := by
  rw [decode, h, ← Field.offset9_eq_signExtend]

theorem decode_of_str (h : m.lookup (Field.opcode w) = .str) :
    decode m w = .str (Field.dst w) (Field.src1 w) ((w.extractLsb 5 0).signExtend 16) := by
  rw [decode, h, ← Field.offset6_eq_signExtend]

theorem decode_of_sti (h : m.lookup (Field.opcode w) = .sti) :
    decode m w = .sti (Field.dst w) ((w.extractLsb 8 0).signExtend 16) := by
  rw [decode, h, ← Field.offset9_eq_signExtend]

/-- NOT's bits [5:0] are ignored (rule R107). -/
theorem decode_of_not (h : m.lookup (Field.opcode w) = .not) :
    decode m w = .notR (Field.dst w) (Field.src1 w) := by
  rw [decode, h]

end

namespace Machine

/-! ### Addresses and the ALU -/

/-- A base-plus-offset address wraps modulo 2^16 (rules R36, R105). -/
theorem State.basePlus_eq_ofNat (s : State) (b : Reg) (off : Word) :
    s.basePlus b off = BitVec.ofNat 16 ((s.reg b).toNat + off.toNat) :=
  BitVec.add_def (s.reg b) off

/-- An indirect address is the word at the wrapped PC-relative one (rules R108, R109). -/
theorem State.pointerAt_eq_memRead_ofNat (s : State) (off : Word) :
    s.pointerAt off = s.memRead (BitVec.ofNat 16 (s.pc.toNat + off.toNat)) := by
  rw [State.pointerAt, State.pcRelative_eq_ofNat]

/-- Each of the 16 bits of the ALU's complement is the operand's bit inverted (rule R107). -/
theorem getLsbD_alu_not (x y : Word) {k : Nat} (hk : k < 16) :
    (alu .not x y).getLsbD k = !x.getLsbD k :=
  BitVec.getLsbD_not.trans (by rw [decide_eq_true hk, Bool.true_and])

/-- Writing a complement has NOT's effect. -/
theorem State.writeResult_not {s t : State} {d : Reg} {x y : Word}
    (ht : t = s.writeResult d (alu .not x y)) :
    WritesResult d (t.reg d) s t ∧ ∀ k < 16, (t.reg d).getLsbD k = !x.getLsbD k := by
  rw [ht, State.writeResult_reg_same]
  exact ⟨s.writeResult_writesResult d _, fun _ hk => getLsbD_alu_not x y hk⟩

/-- A store of one word has exactly the effect rule R38 gives it, in a canonical memory. -/
theorem State.memWrite_storesWord {s : State} (wf : s.mem.wf = true) (a v : Word) :
    StoresWord a v s (s.memWrite a v) :=
  ⟨State.memRead_memWrite wf a v, s.memWrite_reg a v, s.memWrite_cond a v, s.memWrite_pc a v,
    s.memWrite_ir a v, s.memWrite_runState a v, s.memWrite_haltCause a v, s.memWrite_started a v,
    s.memWrite_cfg a v⟩

/-! ### The instructions with FULL_ISA: the dispatch takes the handler's effect -/

section
variable {s : State} (full : s.cfg.fullIsa = true)
include full

theorem exec_ld_of_fullIsa (d : Reg) (off : Word) :
    exec (.ld d off) s = .next (s.writeResult d (s.memRead (s.pcRelative off))) :=
  congrArg Host.Outcome.next (dispatch_handled (o := .ld) full _)

theorem exec_ldr_of_fullIsa (d b : Reg) (off : Word) :
    exec (.ldr d b off) s = .next (s.writeResult d (s.memRead (s.basePlus b off))) :=
  congrArg Host.Outcome.next (dispatch_handled (o := .ldr) full _)

theorem exec_ldi_of_fullIsa (d : Reg) (off : Word) :
    exec (.ldi d off) s = .next (s.writeResult d (s.memRead (s.pointerAt off))) :=
  congrArg Host.Outcome.next (dispatch_handled (o := .ldi) full _)

theorem exec_notR_of_fullIsa (d a : Reg) :
    exec (.notR d a) s = .next (s.writeResult d (alu .not (s.reg a) 0)) :=
  congrArg Host.Outcome.next (dispatch_handled (o := .not) full _)

theorem exec_st_of_fullIsa (r : Reg) (off : Word) :
    exec (.st r off) s = .next (s.memWrite (s.pcRelative off) (s.reg r)) :=
  congrArg Host.Outcome.next (dispatch_handled (o := .st) full _)

theorem exec_str_of_fullIsa (r b : Reg) (off : Word) :
    exec (.str r b off) s = .next (s.memWrite (s.basePlus b off) (s.reg r)) :=
  congrArg Host.Outcome.next (dispatch_handled (o := .str) full _)

theorem exec_sti_of_fullIsa (r : Reg) (off : Word) :
    exec (.sti r off) s = .next (s.memWrite (s.pointerAt off) (s.reg r)) :=
  congrArg Host.Outcome.next (dispatch_handled (o := .sti) full _)

end

/-! ### The loads and NOT -/

/-- Settles O24: LD is a result write of the word at the PC-relative address. -/
theorem ldLoadsPcRelative : Obligations.LdLoadsPcRelative := by
  unfold Obligations.LdLoadsPcRelative
  refine ⟨fun _ _ h => decode_of_ld h, fun d off s full => ⟨_, exec_ld_of_fullIsa full d off, ?_⟩⟩
  rw [State.pcRelative_eq_ofNat]
  exact s.writeResult_writesResult d _

/-- Settles O25: LDR is a result write of the word at the base-plus-offset address, which is read before
the destination is written. -/
theorem ldrLoadsBasePlusOffset : Obligations.LdrLoadsBasePlusOffset := by
  unfold Obligations.LdrLoadsBasePlusOffset
  refine ⟨fun _ _ h => decode_of_ldr h, fun d b off s full => ⟨_, exec_ldr_of_fullIsa full d b off, ?_⟩⟩
  rw [State.basePlus_eq_ofNat]
  exact s.writeResult_writesResult d _

/-- Settles O26: LDI is a result write of the word at the indirect address. -/
theorem ldiLoadsThroughPointer : Obligations.LdiLoadsThroughPointer := by
  unfold Obligations.LdiLoadsThroughPointer
  refine ⟨fun _ _ h => decode_of_ldi h, fun d off s full => ⟨_, exec_ldi_of_fullIsa full d off, ?_⟩⟩
  rw [State.pointerAt_eq_memRead_ofNat]
  exact s.writeResult_writesResult d _

/-- Settles O28: NOT is a result write of the ALU's complement. -/
theorem notWritesComplementAndFlags : Obligations.NotWritesComplementAndFlags := by
  unfold Obligations.NotWritesComplementAndFlags
  exact ⟨fun _ _ h => decode_of_not h,
    fun d a _ full => ⟨_, exec_notR_of_fullIsa full d a, State.writeResult_not rfl⟩⟩

/-! ### The stores -/

/-- Settles O29: ST stores one word, at the PC-relative address. -/
theorem stStoresPcRelative : Obligations.StStoresPcRelative := by
  unfold Obligations.StStoresPcRelative
  exact ⟨fun _ _ h => decode_of_st h,
    fun r off s full wf => ⟨_, exec_st_of_fullIsa full r off, State.memWrite_storesWord wf (s.pc + off) _⟩⟩

/-- Settles O30: STR stores one word, at the base-plus-offset address. -/
theorem strStoresBasePlusOffset : Obligations.StrStoresBasePlusOffset := by
  unfold Obligations.StrStoresBasePlusOffset
  exact ⟨fun _ _ h => decode_of_str h,
    fun r b off s full wf =>
      ⟨_, exec_str_of_fullIsa full r b off, State.memWrite_storesWord wf (s.reg b + off) _⟩⟩

/-- Settles O31: STI stores one word, at the pointer read from the memory before the write. -/
theorem stiStoresThroughPointer : Obligations.StiStoresThroughPointer := by
  unfold Obligations.StiStoresThroughPointer
  exact ⟨fun _ _ h => decode_of_sti h,
    fun r off s full wf =>
      ⟨_, exec_sti_of_fullIsa full r off, State.memWrite_storesWord wf (s.memRead (s.pc + off)) _⟩⟩

end Machine

end Sys2Proof
end

section
/-! Encoding (rules R55 to R62, R101): the numbers of an opcode map, the fields of a word that `place`
built, and how decode and encode meet. -/

namespace Sys2Proof

/-! ### Opcode maps that number every opcode -/

theorem OpcodeMap.mem_of_wf {m : OpcodeMap} (hm : m.wf = true) (o : Opcode) : o ∈ m.toList := by
  have listed : o ∈ Opcode.all := by cases o <;> decide
  exact List.contains_iff_mem.mp (List.all_eq_true.mp hm o listed)

/-- Sixteen names on sixteen values: none occurs twice. -/
theorem OpcodeMap.nodup_of_wf {m : OpcodeMap} (hm : m.wf = true) : m.toList.Nodup := by
  have names : Opcode.all.Nodup := by decide
  have sub : Opcode.all.Subperm m.toList := List.subperm_of_subset names fun o _ => m.mem_of_wf hm o
  have len : m.toList.length ≤ Opcode.all.length := by simp [Opcode.all]
  exact names.perm (sub.perm_of_length_le len)

/-- The map names its own number of an opcode with that opcode. -/
theorem OpcodeMap.lookup_number {m : OpcodeMap} (hm : m.wf = true) (o : Opcode) :
    m.lookup (m.number o) = o := by
  have lt : m.toList.idxOf o < m.toList.length := List.idxOf_lt_length_iff.mpr (m.mem_of_wf hm o)
  have value : (m.number o).toNat = m.toList.idxOf o := by
    rw [OpcodeMap.number, BitVec.toNat_ofNat, Nat.mod_eq_of_lt (by simpa using lt)]
  have found := List.getElem_idxOf lt
  simp only [← value] at found
  simpa [OpcodeMap.lookup] using found

/-- A number of an opcode is the only one it has. -/
theorem OpcodeMap.number_of_lookup {m : OpcodeMap} (hm : m.wf = true) {b : BitVec 4} {o : Opcode}
    (h : m.lookup b = o) : m.number o = b := by
  have lt : b.toNat < m.toList.length := by simpa using b.isLt
  have at_b : m.toList[b.toNat] = o := by simpa [OpcodeMap.lookup] using h
  rw [OpcodeMap.number, ← at_b, (m.nodup_of_wf hm).idxOf_getElem _ lt, BitVec.ofNat_toNat, BitVec.setWidth_eq]

/-! ### Register numbers -/

@[simp] theorem Reg.ofBits_bits (r : Reg) : Reg.ofBits r.bits = r := by
  cases r <;> rfl

@[simp] theorem Reg.bits_ofBits (b : BitVec 3) : (Reg.ofBits b).bits = b := by
  revert b; decide

/-! ### Fields of a word -/

theorem getLsbD_place (lo : Nat) {n : Nat} (f : BitVec n) (k : Nat) :
    (place lo f).getLsbD k = (decide (k < 16) && decide (lo ≤ k) && f.getLsbD (k - lo)) := by
  simp only [place, BitVec.getLsbD_shiftLeft, BitVec.getLsbD_setWidth]
  by_cases hk : k < 16
  · by_cases hlo : lo ≤ k <;> simp [hk, hlo, show k - lo < 16 by omega]
  · simp [hk]

/-- A field reads back from where it was placed. -/
@[simp] theorem extractLsb'_place_same {lo n : Nat} (f : BitVec n) (h : lo + n ≤ 16) :
    (place lo f).extractLsb' lo n = f := by
  refine BitVec.eq_of_getLsbD_eq fun k hk => ?_
  rw [BitVec.getLsbD_extractLsb', getLsbD_place]
  simp [hk, show lo + k < 16 by omega]

/-- A field placed elsewhere is not seen. -/
@[simp] theorem extractLsb'_place_of_disjoint {lo n lo' n' : Nat} (f : BitVec n')
    (h : lo + n ≤ lo' ∨ lo' + n' ≤ lo) :
    (place lo' f).extractLsb' lo n = 0#n := by
  refine BitVec.eq_of_getLsbD_eq fun k hk => ?_
  rw [BitVec.getLsbD_extractLsb', getLsbD_place]
  rcases h with below | above
  · simp [show ¬lo' ≤ lo + k by omega]
  · simp [BitVec.getLsbD_of_ge f (lo + k - lo') (by omega)]

/-- Placing a field of a word where it stands keeps the word's bits there. -/
theorem place_extractLsb' (w : Word) {lo n : Nat} :
    place lo (w.extractLsb' lo n) = w &&& place lo (BitVec.allOnes n) := by
  refine BitVec.eq_of_getLsbD_eq fun k hk => ?_
  rw [BitVec.getLsbD_and, getLsbD_place, getLsbD_place, BitVec.getLsbD_extractLsb', BitVec.getLsbD_allOnes]
  by_cases hlo : lo ≤ k
  · simp [hk, hlo, Nat.add_sub_cancel' hlo, Bool.and_comm]
  · simp [hlo]

theorem fitsSigned_iff {n : Nat} {v : Word} :
    fitsSigned n v = true ↔ -(2 : Int) ^ (n - 1) ≤ v.toInt ∧ v.toInt < (2 : Int) ^ (n - 1) := by
  rw [fitsSigned, Bool.and_eq_true, decide_eq_true_eq, decide_eq_true_eq]

/-- An `n`-bit field reads as a value of its signed range (rules R60, R61). -/
theorem fitsSigned_signExtend {n : Nat} (hn : n ≤ 16) (x : BitVec n) :
    fitsSigned n (x.signExtend 16) = true := by
  rw [fitsSigned_iff, BitVec.toInt_signExtend_of_le hn]
  exact ⟨BitVec.le_toInt x, BitVec.toInt_lt⟩

/-- A value of a field's signed range is what the field reads as. -/
theorem signExtend_setWidth_of_fitsSigned {n : Nat} {v : Word} (hpos : 0 < n) (hn : n ≤ 16)
    (h : fitsSigned n v = true) : (v.setWidth n).signExtend 16 = v := by
  obtain ⟨lower, upper⟩ := fitsSigned_iff.mp h
  have double : (2 : Int) ^ n = 2 * 2 ^ (n - 1) := by
    rw [← pow_succ', Nat.sub_add_cancel hpos]
  apply BitVec.eq_of_toInt_eq
  calc ((v.setWidth n).signExtend 16).toInt
      = (v.toNat : Int).bmod (2 ^ n) := by rw [BitVec.toInt_signExtend_of_le hn, BitVec.toInt_setWidth]
    _ = v.toInt.bmod (2 ^ n) := by
        rw [BitVec.toInt_eq_toNat_bmod, Int.bmod_bmod_of_dvd (Nat.pow_dvd_pow 2 hn)]
    _ = v.toInt := by
        apply Int.bmod_eq_of_le <;> push_cast <;> omega

theorem setWidth_signExtend {n : Nat} (hn : n ≤ 16) (x : BitVec n) : (x.signExtend 16).setWidth n = x := by
  refine BitVec.eq_of_getLsbD_eq fun k hk => ?_
  rw [BitVec.getLsbD_setWidth, BitVec.getLsbD_signExtend]
  simp only [hk, show k < 16 by omega, decide_true, Bool.true_and, if_true]

/-! ### What each field of the formats reads -/

section
variable (w : Word)

theorem Field.opcode_eq : Field.opcode w = w.extractLsb' 12 4 := rfl
theorem Field.dst_eq : Field.dst w = Reg.ofBits (w.extractLsb' 9 3) := rfl
theorem Field.src1_eq : Field.src1 w = Reg.ofBits (w.extractLsb' 6 3) := rfl
theorem Field.src2_eq : Field.src2 w = Reg.ofBits (w.extractLsb' 0 3) := rfl
theorem Field.imm5_eq : Field.imm5 w = (w.extractLsb' 0 5).signExtend 16 := Field.imm5_eq_signExtend w
theorem Field.offset6_eq : Field.offset6 w = (w.extractLsb' 0 6).signExtend 16 := Field.offset6_eq_signExtend w
theorem Field.offset9_eq : Field.offset9 w = (w.extractLsb' 0 9).signExtend 16 := Field.offset9_eq_signExtend w
theorem Field.pcOffset11_eq : Field.pcOffset11 w = (w.extractLsb' 0 11).signExtend 16 :=
  sext_setWidth (n := 11) (by decide) (by decide) _
theorem Field.trapvect8_eq : Field.trapvect8 w = (w.extractLsb' 0 8).setWidth 16 := rfl

/-- A single bit is the field of length one that stands there. -/
theorem ofBool_getLsbD (k : Nat) : BitVec.ofBool (w.getLsbD k) = w.extractLsb' k 1 := by
  refine BitVec.eq_of_getLsbD_eq fun j hj => ?_
  obtain rfl : j = 0 := by omega
  simp

theorem getLsbD_eq_extractLsb' (k : Nat) : w.getLsbD k = (w.extractLsb' k 1).getLsbD 0 := by
  simp

theorem Field.mode_eq : Field.mode w = (w.extractLsb' 5 1).getLsbD 0 := getLsbD_eq_extractLsb' w 5
theorem Field.n_eq : Field.n w = (w.extractLsb' 11 1).getLsbD 0 := getLsbD_eq_extractLsb' w 11
theorem Field.z_eq : Field.z w = (w.extractLsb' 10 1).getLsbD 0 := getLsbD_eq_extractLsb' w 10
theorem Field.p_eq : Field.p w = (w.extractLsb' 9 1).getLsbD 0 := getLsbD_eq_extractLsb' w 9
theorem Field.long_eq : Field.long w = (w.extractLsb' 11 1).getLsbD 0 := getLsbD_eq_extractLsb' w 11

end

/-! ### Decoding an encoded instruction -/

/-- The encoder writes the opcode's number where the decoder reads it. -/
theorem opcode_encode (m : OpcodeMap) (i : Instr) : Field.opcode (encode m i) = m.number i.opcode := by
  cases i <;> simp [encode, Instr.opcode, Field.opcode_eq, BitVec.extractLsb'_or]

theorem lookup_opcode_encode {m : OpcodeMap} (hm : m.wf = true) (i : Instr) :
    m.lookup (Field.opcode (encode m i)) = i.opcode := by
  rw [opcode_encode, OpcodeMap.lookup_number hm]

/-- The operand fields read back what the encoder placed in them, the signed ones because their value is in
range. -/
theorem decode_encode {m : OpcodeMap} {i : Instr} (hm : m.wf = true) (hi : i.wf = true) :
    decode m (encode m i) = i := by
  rw [decode, lookup_opcode_encode hm]
  cases i with
  | rti | res => rfl
  | addR | andR | jmp | jsrr | notR =>
    simp [Instr.opcode, encode, BitVec.extractLsb'_or, Field.mode_eq, Field.long_eq, Field.dst_eq,
      Field.src1_eq, Field.src2_eq]
  | addI _ _ v | andI _ _ v =>
    have value := signExtend_setWidth_of_fitsSigned (n := 5) (by decide) (by decide) hi
    simp [Instr.opcode, encode, BitVec.extractLsb'_or, Field.mode_eq, Field.dst_eq, Field.src1_eq,
      Field.imm5_eq, value]
  | br _ _ _ off | ld _ off | st _ off | ldi _ off | sti _ off | lea _ off =>
    have value := signExtend_setWidth_of_fitsSigned (n := 9) (by decide) (by decide) hi
    simp [Instr.opcode, encode, BitVec.extractLsb'_or, Field.n_eq, Field.z_eq, Field.p_eq, Field.dst_eq,
      Field.offset9_eq, value]
  | ldr _ _ off | str _ _ off =>
    have value := signExtend_setWidth_of_fitsSigned (n := 6) (by decide) (by decide) hi
    simp [Instr.opcode, encode, BitVec.extractLsb'_or, Field.dst_eq, Field.src1_eq, Field.offset6_eq, value]
  | jsr off =>
    have value := signExtend_setWidth_of_fitsSigned (n := 11) (by decide) (by decide) hi
    simp [Instr.opcode, encode, BitVec.extractLsb'_or, Field.long_eq, Field.pcOffset11_eq, value]
  | trap v =>
    have value : (v.setWidth 8).setWidth 16 = v := by
      have small : v.toNat < 2 ^ 8 := of_decide_eq_true hi
      exact BitVec.eq_of_toNat_eq (by simp; omega)
    simp [Instr.opcode, encode, BitVec.extractLsb'_or, Field.trapvect8_eq, value]

/-- Settles O7: the opcode by the map's numbering, the operands field by field. -/
theorem decodeEncodeRoundTrip : Obligations.DecodeEncodeRoundTrip := by
  unfold Obligations.DecodeEncodeRoundTrip
  exact fun _ _ hm hi => decode_encode hm hi

/-! ### Decoded operands lie in their fields' ranges -/

/-- The sign extension of every field fits it; the trap vector is below 256. -/
theorem decode_wf (m : OpcodeMap) (w : Word) : (decode m w).wf = true := by
  rw [decode]
  cases m.lookup (Field.opcode w) with
  | rti | res | jmp | not => rfl
  | add | and =>
    cases Field.mode w with
    | false => rfl
    | true => exact Field.imm5_eq w ▸ fitsSigned_signExtend (by decide) _
  | jsr =>
    cases Field.long w with
    | false => rfl
    | true => exact Field.pcOffset11_eq w ▸ fitsSigned_signExtend (by decide) _
  | br | ld | st | ldi | sti | lea => exact Field.offset9_eq w ▸ fitsSigned_signExtend (by decide) _
  | ldr | str => exact Field.offset6_eq w ▸ fitsSigned_signExtend (by decide) _
  | trap =>
    refine decide_eq_true ?_
    rw [toNat_trapvect8]
    exact Nat.mod_lt _ (by decide)

/-- Settles O9: every operand is a field, sign-extended or zero-extended. -/
theorem decodedInstructionsAreWellFormed : Obligations.DecodedInstructionsAreWellFormed := by
  unfold Obligations.DecodedInstructionsAreWellFormed
  exact decode_wf

/-! ### Words that agree on used bits -/

/-- Words that agree under a mask agree on a field the mask covers. -/
theorem extractLsb'_congr_of_mask {w w' mask : Word} (h : w &&& mask = w' &&& mask) {lo n : Nat}
    (covers : mask.extractLsb' lo n = BitVec.allOnes n) : w'.extractLsb' lo n = w.extractLsb' lo n := by
  have fields := congrArg (BitVec.extractLsb' lo n) h
  rwa [BitVec.extractLsb'_and, BitVec.extractLsb'_and, covers, BitVec.and_allOnes, BitVec.and_allOnes,
    eq_comm] at fields

/-- Every format reads the opcode. -/
theorem usedBits_opcode (i : Instr) : i.usedBits.extractLsb' 12 4 = BitVec.allOnes 4 := by
  cases i <;> simp only [Instr.usedBits] <;> decide

/-- The decoder reads only the fields that `usedBits` of its verdict covers, the mode bits among them. -/
theorem decode_congr {m : OpcodeMap} {w w' : Word}
    (h : w &&& (decode m w).usedBits = w' &&& (decode m w).usedBits) : decode m w' = decode m w := by
  have opcode : Field.opcode w' = Field.opcode w := extractLsb'_congr_of_mask h (usedBits_opcode _)
  rw [decode, opcode]
  rw [decode] at h ⊢
  generalize m.lookup (Field.opcode w) = o at h ⊢
  cases o with
  | rti | res => rfl
  | br | ld | st | ldr | str | not | ldi | sti | jmp | lea | trap =>
    simp only [Instr.usedBits] at h
    simp (disch := decide) only [Field.n_eq, Field.z_eq, Field.p_eq, Field.dst_eq, Field.src1_eq,
      Field.offset9_eq, Field.offset6_eq, Field.trapvect8_eq, extractLsb'_congr_of_mask h]
  | add | and =>
    cases mode : Field.mode w with
    | true | false =>
      simp only [mode, Bool.false_eq_true, if_true, if_false, Instr.usedBits] at h
      have mode' : Field.mode w' = Field.mode w := by
        simp (disch := decide) only [Field.mode_eq, extractLsb'_congr_of_mask h]
      simp (disch := decide) only [mode', mode, Bool.false_eq_true, if_false, Field.dst_eq, Field.src1_eq,
        Field.src2_eq, Field.imm5_eq, extractLsb'_congr_of_mask h]
  | jsr =>
    cases long : Field.long w with
    | true | false =>
      simp only [long, Bool.false_eq_true, if_true, if_false, Instr.usedBits] at h
      have long' : Field.long w' = Field.long w := by
        simp (disch := decide) only [Field.long_eq, extractLsb'_congr_of_mask h]
      simp (disch := decide) only [long', long, Bool.false_eq_true, if_false, Field.src1_eq,
        Field.pcOffset11_eq, extractLsb'_congr_of_mask h]

/-- Settles O10: the words agree on every field the decoder reads. -/
theorem unusedBitsIgnored : Obligations.UnusedBitsIgnored := by
  unfold Obligations.UnusedBitsIgnored
  exact fun _ _ _ h => decode_congr h

/-! ### Encoding a decoded word -/

/-- A mask that covers the used bits, but for a gap where the word is clear, hides none of them. -/
theorem and_and_of_covers {w mask gap used : Word} (clear : w &&& gap = 0#16)
    (covers : (mask ||| gap) &&& used = used) : (w &&& mask) &&& used = w &&& used := by
  calc (w &&& mask) &&& used = (w &&& mask ||| w &&& gap) &&& used := by rw [clear, BitVec.or_zero]
    _ = w &&& ((mask ||| gap) &&& used) := by rw [← BitVec.and_or_distrib_left, BitVec.and_assoc]
    _ = w &&& used := by rw [covers]

/-- The same where the mask leaves no gap. -/
theorem and_and_of_covers_all {w mask used : Word} (covers : mask &&& used = used) :
    (w &&& mask) &&& used = w &&& used :=
  and_and_of_covers (gap := 0#16) BitVec.and_zero (by rwa [BitVec.or_zero])

theorem and_place_of_clear {w : Word} {k : Nat} (h : w.getLsbD k = false) :
    w &&& place k (BitVec.allOnes 1) = 0#16 := by
  rw [← place_extractLsb', ← ofBool_getLsbD, h]
  exact BitVec.zero_shiftLeft k

theorem place_of_set {w : Word} {k : Nat} (h : w.getLsbD k = true) :
    place k 1#1 = w &&& place k (BitVec.allOnes 1) := by
  rw [← place_extractLsb', ← ofBool_getLsbD, h]
  rfl

/-- Each field goes back to where the word had it; a mode bit is in the encoding where it is set, and clear in
the word where the encoding has none. -/
theorem encode_decode {m : OpcodeMap} (hm : m.wf = true) (w : Word) :
    encode m (decode m w) &&& (decode m w).usedBits = w &&& (decode m w).usedBits := by
  have number : m.number (m.lookup (Field.opcode w)) = w.extractLsb' 12 4 := m.number_of_lookup hm rfl
  rw [decode]
  generalize m.lookup (Field.opcode w) = o at number ⊢
  cases o with
  | br | ld | st | ldr | str | rti | ldi | sti | jmp | res | lea | trap =>
    simp (disch := decide) only [encode, Instr.usedBits, number, Field.n, Field.z, Field.p, ofBool_getLsbD,
      Field.dst_eq, Field.src1_eq, Field.offset9_eq, Field.offset6_eq, Field.trapvect8_eq, Reg.bits_ofBits,
      setWidth_signExtend, BitVec.setWidth_setWidth_of_le, BitVec.setWidth_eq, place_extractLsb',
      ← BitVec.and_or_distrib_left]
    refine and_and_of_covers_all ?_
    decide
  | not =>
    have unread : place 0 0x3F#6 &&& (0xFFC0 : Word) = 0#16 := by decide
    simp only [encode, Instr.usedBits, number, Field.dst_eq, Field.src1_eq, Reg.bits_ofBits, place_extractLsb',
      ← BitVec.and_or_distrib_left]
    rw [BitVec.and_or_distrib_right, unread, BitVec.or_zero]
    refine and_and_of_covers_all ?_
    decide
  | add | and =>
    cases mode : Field.mode w with
    | true =>
      simp (disch := decide) only [if_true, encode, Instr.usedBits, number, place_of_set mode, Field.dst_eq,
        Field.src1_eq, Field.imm5_eq, Reg.bits_ofBits, setWidth_signExtend, place_extractLsb',
        ← BitVec.and_or_distrib_left]
      refine and_and_of_covers_all ?_
      decide
    | false =>
      simp only [Bool.false_eq_true, if_false, encode, Instr.usedBits, number, Field.dst_eq, Field.src1_eq,
        Field.src2_eq, Reg.bits_ofBits, place_extractLsb', ← BitVec.and_or_distrib_left]
      refine and_and_of_covers (and_place_of_clear mode) ?_
      decide
  | jsr =>
    cases long : Field.long w with
    | true =>
      simp (disch := decide) only [if_true, encode, Instr.usedBits, number, place_of_set long, Field.pcOffset11_eq,
        setWidth_signExtend, place_extractLsb', ← BitVec.and_or_distrib_left]
      refine and_and_of_covers_all ?_
      decide
    | false =>
      simp only [Bool.false_eq_true, if_false, encode, Instr.usedBits, number, Field.src1_eq, Reg.bits_ofBits,
        place_extractLsb', ← BitVec.and_or_distrib_left]
      refine and_and_of_covers (and_place_of_clear long) ?_
      decide

/-- Settles O8: under a complete map each field of the word is placed back where it stood. -/
theorem encodeDecodeKeepsUsedBits : Obligations.EncodeDecodeKeepsUsedBits := by
  unfold Obligations.EncodeDecodeKeepsUsedBits
  exact fun _ w hm => encode_decode hm w

/-! ### Words written out, and words as bytes -/

/-- Settles O12, by running the decoder on each word. -/
theorem writtenOutWordsDecode : Obligations.WrittenOutWordsDecode := by
  unfold Obligations.WrittenOutWordsDecode
  decide

theorem decodeBytes_bytesOfWord (m : OpcodeMap) (w : Word) (rest : List Byte) :
    decodeBytes m (bytesOfWord w ++ rest) = .ok (decode m w, rest) := by
  simp only [bytesOfWord, List.cons_append, List.nil_append, decodeBytes, Machine.wordOfBytes_bytes]

/-- Settles O13: the two bytes put together are the word. -/
theorem imageBytesDecodeAsTheirWord : Obligations.ImageBytesDecodeAsTheirWord := by
  unfold Obligations.ImageBytesDecodeAsTheirWord
  exact decodeBytes_bytesOfWord

/-- A table word that has an instruction decodes to it under the conventional map. -/
theorem decode_of_decodeTableWord {nbits w : Nat} {i : Instr} (h : decodeTableWord nbits w = some i) :
    decode conventionalOpcodes (tableWord nbits w) = i := by
  have bytes := decodeBytes_bytesOfWord conventionalOpcodes (tableWord nbits w) []
  rw [List.append_nil] at bytes
  rw [decodeTableWord, bytes] at h
  split at h
  · exact Option.some.inj h
  · cases h

end Sys2Proof
end

section
/-! The step (rules R70 to R74, R79, R120 to R122): what it does in each run state, which opcodes have no
handler, and what an instruction can change of the run state, registers, memory and PC. -/

namespace Sys2Proof.Machine

/-! ### The step request -/

theorem step_of_halted {s : State} (h : s.runState = .halted) : step s = .next s := by
  rw [step, h]

theorem request_step_of_halted {s : State} (h : s.runState = .halted) : request .step s = none := by
  rw [request, h]

theorem request_step_of_running {s t : State} (running : s.runState = .running) (h : step s = .next t) :
    request .step s = some t := by
  rw [request, running]
  simp only [h]

/-- Every step answers a next state (rule R122; in HALTED by log entry 6). -/
theorem step_completes (s : State) : ∃ t, step s = .next t := by
  cases hr : s.runState with
  | halted => exact ⟨s, step_of_halted hr⟩
  | running =>
    rw [step_of_running hr]
    exact exec_completes _ _

/-- Settles O1: the run state alone decides, since no step fails. -/
theorem stepOnlyWhileRunning : Obligations.StepOnlyWhileRunning := by
  unfold Obligations.StepOnlyWhileRunning
  refine fun s => ⟨fun halted => ⟨step_of_halted halted, request_step_of_halted halted⟩, fun running => ?_⟩
  obtain ⟨t, ht⟩ := step_completes s
  exact ⟨t, ht, request_step_of_running running ht⟩

/-- The fetch, field by field: the incremented PC wraps modulo 2^16 (rules R36, R71). -/
theorem State.fetch_eq (s : State) :
    s.fetch = { s with ir := s.memRead s.pc, pc := BitVec.ofNat 16 (s.pc.toNat + 1), started := true } := by
  rw [State.fetch, BitVec.add_def]
  rfl

/-- Settles O2: a step in RUNNING is the fetch and then the decoded instruction. -/
theorem stepRunsFetchedInstruction : Obligations.StepRunsFetchedInstruction := by
  unfold Obligations.StepRunsFetchedInstruction
  intro s i running hd
  rw [step_of_running running, hd, State.fetch_eq]

/-! ### Handlers -/

/-- An instruction whose opcode has a handler keeps the run state and the halt cause, or is the halting
TRAP. -/
theorem exec_handled_outcome {i : Instr} {s t : State} (hh : hasHandler s.cfg i.opcode = true)
    (h : exec i s = .next t) :
    (t.runState = s.runState ∧ t.haltCause = s.haltCause) ∨
    (i = .trap (s.cfg.haltTrapvect.setWidth 16) ∧ t.runState = .halted ∧ t.haltCause = .haltTrap) := by
  cases exec_effect h with
  | unsupported noHandler => exact absurd hh (by rw [noHandler]; decide)
  | result | address | jump | stay | store | link => exact .inl ⟨rfl, rfl⟩
  | haltTrap _ hi => exact .inr ⟨hi, rfl, rfl⟩

/-- Settles O3: of a handled instruction's effects only the halting TRAP writes run state or halt cause. -/
theorem handlersNeverFail : Obligations.HandlersNeverFail := by
  unfold Obligations.HandlersNeverFail
  refine ⟨step_completes, fun i s hh => ?_⟩
  obtain ⟨t, ht⟩ := exec_completes i s
  exact ⟨t, ht, exec_handled_outcome hh ht⟩

/-- The opcodes without a handler: all but four in the base configuration, RTI and RES in both (rules R62,
R100, R112). -/
theorem hasHandler_eq_false_iff {c : Config} {o : Opcode} :
    hasHandler c o = false ↔
      (c.fullIsa = false ∧ o ≠ .br ∧ o ≠ .add ∧ o ≠ .and ∧ o ≠ .jmp) ∨ o = .rti ∨ o = .res := by
  cases o <;> simp [hasHandler]

/-- Raising UnsupportedOpcode is the halt of rules R79 and R120. -/
theorem raiseUnsupportedOpcode_haltedUnsupported (s : State) : HaltedUnsupported s (raiseUnsupportedOpcode s) :=
  ⟨rfl, rfl, rfl, rfl, rfl, rfl, rfl, fun _ => rfl, fun _ => rfl⟩

theorem exec_haltedUnsupported {i : Instr} {s : State} (hh : hasHandler s.cfg i.opcode = false) :
    ∃ t, exec i s = .next t ∧ HaltedUnsupported s t :=
  ⟨_, exec_unhandled hh, raiseUnsupportedOpcode_haltedUnsupported s⟩

/-- Settles O4: the fetch writes IR and PC, the halt run state and halt cause. -/
theorem unsupportedOpcodeHaltsPrecisely : Obligations.UnsupportedOpcodeHaltsPrecisely := by
  unfold Obligations.UnsupportedOpcodeHaltsPrecisely
  intro s o running ho unsupported
  have noHandler : hasHandler s.fetch.cfg (decode s.cfg.opcodeMap (s.memRead s.pc)).opcode = false := by
    rw [decode_opcode]
    exact hasHandler_eq_false_iff.mpr (ho ▸ unsupported)
  exact ⟨_, (step_of_running running).trans (exec_unhandled noHandler), rfl, rfl, rfl, rfl, rfl, rfl, rfl,
    fun _ => rfl, fun _ => rfl⟩

/-- The event is put out exactly where the fetched opcode has no handler (rules R120, R121). -/
theorem stepDiag_eq_some {s : State} {d : Diag} :
    stepDiag s = some d ↔
      s.runState = .running ∧ hasHandler s.cfg s.fetch.decoded.opcode = false ∧ d = unsupportedDiag s.fetch := by
  rw [stepDiag]
  cases s.runState with
  | halted => simp
  | running => cases hasHandler s.cfg s.fetch.decoded.opcode <;> simp [eq_comm]

/-- Settles O5: a handled opcode never halts with UNSUPPORTED_OPCODE, since the halting TRAP has a cause of
its own. -/
theorem diagnosticExactlyOnUnsupportedHalt : Obligations.DiagnosticExactlyOnUnsupportedHalt := by
  unfold Obligations.DiagnosticExactlyOnUnsupportedHalt
  intro s d
  rw [stepDiag_eq_some]
  constructor
  case mp =>
    rintro ⟨running, noHandler, rfl⟩
    exact ⟨running, _, (step_of_running running).trans (exec_unhandled noHandler), rfl, rfl, rfl⟩
  case mpr =>
    rintro ⟨running, t, ht, halted, cause, hd⟩
    have he : exec s.fetch.decoded s.fetch = .next t := (step_of_running running).symm.trans ht
    cases hh : hasHandler s.fetch.cfg s.fetch.decoded.opcode with
    | false =>
      rw [exec_unhandled hh] at he
      cases he
      exact ⟨running, hh, hd⟩
    | true =>
      rcases exec_handled_outcome hh he with ⟨hr, -⟩ | ⟨-, -, hc⟩
      · rw [halted, State.fetch_runState, running] at hr
        cases hr
      · rw [cause] at hc
        cases hc

/-- Settles O34: neither opcode has a handler in any configuration. -/
theorem rtiAndResAlwaysUnsupported : Obligations.RtiAndResAlwaysUnsupported := by
  unfold Obligations.RtiAndResAlwaysUnsupported
  have decodes (m : OpcodeMap) (w : Word) :
      (m.lookup (Field.opcode w) = .rti → decode m w = .rti) ∧
      (m.lookup (Field.opcode w) = .res → decode m w = .res) :=
    ⟨fun h => by rw [decode, h], fun h => by rw [decode, h]⟩
  exact ⟨decodes, fun _ => exec_haltedUnsupported (i := .rti) rfl,
    fun _ => exec_haltedUnsupported (i := .res) rfl⟩

/-- Settles O35: in the base configuration every other opcode is without a handler. -/
theorem annexUnsupportedInBaseConfiguration : Obligations.AnnexUnsupportedInBaseConfiguration := by
  unfold Obligations.AnnexUnsupportedInBaseConfiguration
  intro i s base hbr hadd hand hjmp
  exact exec_haltedUnsupported (hasHandler_eq_false_iff.mpr (.inl ⟨base, hbr, hadd, hand, hjmp⟩))

/-- Settles O36: ADD, AND, BR and JMP are dispatched without a look at the configuration. -/
theorem baseInstructionsIgnoreFullIsa : Obligations.BaseInstructionsIgnoreFullIsa := by
  unfold Obligations.BaseInstructionsIgnoreFullIsa
  intro i s t b hi h
  cases i with
  | addR | addI | andR | andI | jmp => cases h; rfl
  | br =>
    rw [exec_br] at h ⊢
    cases h
    rfl
  | ld | st | jsr | jsrr | ldr | str | notR | ldi | sti | lea | trap | rti | res =>
    simp [Instr.opcode] at hi

/-! ### Frames of every instruction -/

/-- No instruction writes IR, the parameters or the first-step mark. -/
theorem exec_ir_cfg_started {i : Instr} {s t : State} (h : exec i s = .next t) :
    t.ir = s.ir ∧ t.cfg = s.cfg ∧ t.started = s.started := by
  cases exec_effect h <;> exact ⟨rfl, rfl, rfl⟩

/-- Settles O37, by what an instruction's effect can be. -/
theorem onlyDestinationRegisterChanges : Obligations.OnlyDestinationRegisterChanges := by
  unfold Obligations.OnlyDestinationRegisterChanges
  intro i s t h r changed
  have written {d : Reg} {v : Word} (hc : (if r = d then v else s.reg r) ≠ s.reg r) : r = d :=
    Classical.byContradiction fun hne => hc (if_neg hne)
  cases exec_effect h with
  | unsupported | jump | stay | store => exact absurd rfl changed
  | result d v _ hd => rw [State.writeResult_reg] at changed; rw [hd, written changed]
  | address d v _ _ _ hd => rw [State.setReg_reg] at changed; rw [hd, written changed]
  | link a _ hd => rw [State.setReg_reg] at changed; rw [hd, written changed]
  | haltTrap _ hi => rw [State.halt_reg, State.setReg_reg] at changed; rw [hi, written changed]; rfl

/-- Settles O38: of the effects an instruction can have only a store writes memory, and it writes one word. -/
theorem onlyStoresChangeMemory : Obligations.OnlyStoresChangeMemory := by
  unfold Obligations.OnlyStoresChangeMemory
  intro i s t wf h b changed
  cases exec_effect h with
  | unsupported | result | address | jump | stay | link | haltTrap => exact absurd rfl changed
  | store a v full ha =>
    rw [State.memRead_memWrite wf] at changed
    have same : b = a := Classical.byContradiction fun hne => changed (if_neg hne)
    exact ⟨full, same ▸ ha⟩

/-- Settles O39: the frame of IR, parameters and mark, and the instructions that can move PC. -/
theorem onlyControlTransfersChangePc : Obligations.OnlyControlTransfersChangePc := by
  unfold Obligations.OnlyControlTransfersChangePc
  intro i s t h
  obtain ⟨ir, cfg, started⟩ := exec_ir_cfg_started h
  exact ⟨ir, cfg, started, fun changed => Classical.byContradiction fun hi => changed (exec_pc_unchanged h hi)⟩

/-- Settles O40: of the effects an instruction can have only the two halts write run state or halt cause. -/
theorem haltCauseWrittenOnlyWhenHalting : Obligations.HaltCauseWrittenOnlyWhenHalting := by
  unfold Obligations.HaltCauseWrittenOnlyWhenHalting
  intro s t h changed
  rcases step_cases h with ⟨-, rfl⟩ | ⟨running, he⟩
  · exact absurd changed (by simp)
  · cases exec_effect he with
    | result | address | jump | stay | store | link => exact absurd changed (by simp)
    | unsupported => exact ⟨running, rfl, .inl rfl⟩
    | haltTrap full => exact ⟨running, rfl, .inr ⟨rfl, full⟩⟩

end Sys2Proof.Machine
end

section
/-! JSR, JSRR, TRAP and LEA of the annex under FULL_ISA (rules R104, R110, R111), a store read back by a load
(rule R47), and a stored or placed word that the next step runs. -/

namespace Sys2Proof

section
variable {m : OpcodeMap} {w : Word}

/-- Bit 11 tells JSR from JSRR (rule R101). -/
theorem decode_of_jsr (h : m.lookup (Field.opcode w) = .jsr) :
    decode m w =
      if Field.long w then .jsr ((w.extractLsb 10 0).signExtend 16) else .jsrr (Field.src1 w) := by
  have offset : Field.pcOffset11 w = (w.extractLsb 10 0).signExtend 16 := Field.pcOffset11_eq w
  rw [decode, h, ← offset]

theorem decode_of_trap (h : m.lookup (Field.opcode w) = .trap) :
    decode m w = .trap ((w.extractLsb 7 0).setWidth 16) := by
  rw [decode, h]
  rfl

theorem decode_of_lea (h : m.lookup (Field.opcode w) = .lea) :
    decode m w = .lea (Field.dst w) ((w.extractLsb 8 0).signExtend 16) := by
  rw [decode, h, ← Field.offset9_eq_signExtend]

end

namespace Machine

/-! ### Jumps with a link -/

/-- Writing PC and the old PC to R7 is the jump with a link of rules R104 and R111. -/
theorem State.setPc_setReg_linksAndJumps (s : State) (a : Word) :
    LinksAndJumps a s ((s.setPc a).setReg .r7 s.pc) :=
  ⟨rfl, (s.setPc a).setReg_reg .r7 s.pc, rfl, ⟨rfl, rfl, rfl, rfl, rfl⟩, fun _ => rfl⟩

section
variable {s : State} (full : s.cfg.fullIsa = true)
include full

theorem exec_jsr_of_fullIsa (off : Word) :
    exec (.jsr off) s = .next ((s.setPc (s.pcRelative off)).setReg .r7 s.pc) :=
  congrArg Host.Outcome.next (dispatch_handled (o := .jsr) full _)

theorem exec_jsrr_of_fullIsa (b : Reg) :
    exec (.jsrr b) s = .next ((s.setPc (s.reg b)).setReg .r7 s.pc) :=
  congrArg Host.Outcome.next (dispatch_handled (o := .jsr) full _)

theorem exec_trap_of_fullIsa (v : Word) :
    exec (.trap v) s = .next ((s.setReg .r7 s.pc).trapThrough v) :=
  congrArg Host.Outcome.next (dispatch_handled (o := .trap) full _)

theorem exec_lea_of_fullIsa (d : Reg) (off : Word) :
    exec (.lea d off) s = .next (s.writeAddress d (s.pcRelative off)) :=
  congrArg Host.Outcome.next (dispatch_handled (o := .lea) full _)

end

/-- Settles O22: both are a jump with a link, to a target read from the state before it. -/
theorem subroutineJumpsLinkThroughR7 : Obligations.SubroutineJumpsLinkThroughR7 := by
  unfold Obligations.SubroutineJumpsLinkThroughR7
  refine ⟨fun _ _ h => decode_of_jsr h, fun off s full => ⟨_, exec_jsr_of_fullIsa full off, ?_⟩,
    fun b s full => ⟨_, exec_jsrr_of_fullIsa full b, s.setPc_setReg_linksAndJumps _⟩⟩
  rw [← State.pcRelative_eq_ofNat]
  exact s.setPc_setReg_linksAndJumps _

/-- Settles O23: with R7 written, the halting vector halts, and any other makes it a jump with a link. -/
theorem trapLinksThenHaltsOrVectors : Obligations.TrapLinksThenHaltsOrVectors := by
  unfold Obligations.TrapLinksThenHaltsOrVectors
  refine ⟨fun _ _ h => decode_of_trap h, fun v s full other => ⟨_, exec_trap_of_fullIsa full v, ?_⟩,
    fun s full => ⟨_, exec_trap_of_fullIsa full _, ?_⟩⟩
  · rcases (s.setReg .r7 s.pc).trapThrough_cases v with ⟨halts, -⟩ | ⟨-, e⟩
    · exact absurd halts other
    · rw [e]
      exact s.setPc_setReg_linksAndJumps (s.memRead v)
  · rcases (s.setReg .r7 s.pc).trapThrough_cases (s.cfg.haltTrapvect.setWidth 16) with ⟨-, e⟩ | ⟨other, -⟩
    · rw [e]
      exact ⟨rfl, rfl, rfl, s.setReg_reg .r7 s.pc, rfl, rfl, rfl, rfl, fun _ => rfl⟩
    · exact absurd rfl other

/-! ### LEA -/

/-- Settles O27: the address is written as a result where `LEA_SETS_FLAGS`, and to the register alone where
not. -/
theorem leaWritesAddress : Obligations.LeaWritesAddress := by
  unfold Obligations.LeaWritesAddress
  refine ⟨fun _ _ h => decode_of_lea h, fun d off s full => ⟨_, exec_lea_of_fullIsa full d off, ?_⟩⟩
  rw [← State.pcRelative_eq_ofNat]
  rcases s.writeAddress_cases d (s.pcRelative off) with ⟨flags, e⟩ | ⟨noFlags, e⟩
  · rw [e, State.writeResult_reg_same]
    exact ⟨s.writeResult_reg d _, fun _ => classifies_condOf _, fun h => absurd h (by simp [flags]), rfl,
      s.writeResult_sameControl d _, s.writeResult_memRead d _⟩
  · rw [e]
    exact ⟨s.setReg_reg d _, fun h => absurd h (by simp [noFlags]), fun _ => rfl, rfl,
      ⟨rfl, rfl, rfl, rfl, rfl⟩, fun _ => rfl⟩

/-! ### A word that was just written -/

theorem State.memRead_memWrite_same {s : State} (wf : s.mem.wf = true) (a v : Word) :
    (s.memWrite a v).memRead a = v := by
  rw [State.memRead_memWrite wf, if_pos rfl]

/-- Settles O32: the store changes no register, so the load's address is the store's. -/
theorem loadAfterStoreReturnsValue : Obligations.LoadAfterStoreReturnsValue := by
  unfold Obligations.LoadAfterStoreReturnsValue
  intro r b d off s full wf
  have store := exec_str_of_fullIsa full r b off
  have load := exec_ldr_of_fullIsa (s := s.memWrite (s.basePlus b off) (s.reg r)) full d b off
  refine ⟨_, _, store, load, ?_⟩
  rw [State.writeResult_reg_same]
  exact State.memRead_memWrite_same wf (s.basePlus b off) _

/-- A step runs the instruction of a word that was just written at PC. -/
theorem step_memWrite_pc {s : State} (running : s.runState = .running) (wf : s.mem.wf = true) (v : Word) :
    step (s.memWrite s.pc v) =
      exec (decode s.cfg.opcodeMap v) { s.memWrite s.pc v with ir := v, pc := s.pc + 1, started := true } := by
  rw [step_of_running (s := s.memWrite s.pc v) running, State.fetch, State.memWrite_pc,
    State.memRead_memWrite_same wf, State.memWrite_cfg]
  rfl

/-- Settles O33: ST with offset 0 writes the word at PC. -/
theorem storedWordIsFetchedNext : Obligations.StoredWordIsFetchedNext := by
  unfold Obligations.StoredWordIsFetchedNext
  intro r s running full wf
  refine ⟨_, exec_st_of_fullIsa full r 0, ?_⟩
  rw [show s.pcRelative 0 = s.pc from BitVec.add_zero s.pc]
  exact step_memWrite_pc running wf (s.reg r)

/-- Settles O14: the placed word is one just written at PC of a RUNNING state under the conventional map. -/
theorem placedWordIsRunNext : Obligations.PlacedWordIsRunNext := by
  unfold Obligations.PlacedWordIsRunNext
  intro s nbits w i wf hi
  have placed := step_memWrite_pc (s := { s with
    runState := .running, haltCause := .none, cfg := { s.cfg with opcodeMap := conventionalOpcodes } })
    rfl wf (tableWord nbits w)
  rwa [decode_of_decodeTableWord hi] at placed

end Machine

end Sys2Proof
end

section
/-! Runs of steps and the invariant (rules R16 to R19, R33, R47, R77, R126): what every step keeps, what every
accepted request keeps, and where a run ends. -/

namespace Sys2Proof.Machine

/-! ### Runs -/

/-- What every step keeps, every run of steps keeps. -/
theorem RunsTo.keeps {P : State → Prop} (step_keeps : ∀ {s t : State}, P s → step s = .next t → P t) {n : Nat}
    {s t : State} (hs : P s) (h : RunsTo n s t) : P t := by
  induction n generalizing s with
  | zero => exact h ▸ hs
  | succ n ih =>
    obtain ⟨u, hu, rest⟩ := h
    exact ih (step_keeps hs hu) rest

/-- Steps from HALTED stay at the same state (log entry 6). -/
theorem RunsTo.of_halted {s : State} (h : s.runState = .halted) (n : Nat) : RunsTo n s s := by
  induction n with
  | zero => rfl
  | succ n ih => exact ⟨s, step_of_halted h, ih⟩

theorem RunsTo.append {n k : Nat} {s t u : State} (h : RunsTo n s t) (h' : RunsTo k t u) :
    RunsTo (k + n) s u := by
  induction n generalizing s with
  | zero => exact h ▸ h'
  | succ n ih =>
    obtain ⟨v, hv, rest⟩ := h
    exact ⟨v, hv, ih rest⟩

theorem RunsTo.deterministic {n : Nat} {s t t' : State} (h : RunsTo n s t) (h' : RunsTo n s t') : t = t' := by
  induction n generalizing s with
  | zero => exact h.trans h'.symm
  | succ n ih =>
    obtain ⟨u, hu, rest⟩ := h
    obtain ⟨u', hu', rest'⟩ := h'
    obtain rfl : u = u' := Host.Outcome.next.inj (hu.symm.trans hu')
    exact ih rest rest'

/-- Settles O43: both runs go on, at their ends, to the sum of their lengths. -/
theorem runEndIsUnique : Obligations.RunEndIsUnique := by
  unfold Obligations.RunEndIsUnique
  rintro s t t' ⟨halted, n, h⟩ ⟨halted', n', h'⟩
  have long : RunsTo (n' + n) s t := h.append (.of_halted halted n')
  have long' : RunsTo (n + n') s t' := h'.append (.of_halted halted' n)
  exact long.deterministic (Nat.add_comm n n' ▸ long')

/-! ### The base configuration's memory -/

theorem exec_mem_of_base {i : Instr} {s t : State} (base : s.cfg.fullIsa = false) (h : exec i s = .next t) :
    t.mem = s.mem := by
  cases exec_effect h with
  | unsupported | result | address | jump | stay | link | haltTrap => rfl
  | store _ _ full => exact absurd (full.symm.trans base) (by decide)

theorem step_cfg {s t : State} (h : step s = .next t) : t.cfg = s.cfg := by
  rcases step_cases h with ⟨-, rfl⟩ | ⟨-, he⟩
  · rfl
  · obtain ⟨-, cfg, -⟩ := exec_ir_cfg_started he
    exact cfg

theorem step_mem_of_base {s t : State} (base : s.cfg.fullIsa = false) (h : step s = .next t) : t.mem = s.mem := by
  rcases step_cases h with ⟨-, rfl⟩ | ⟨-, he⟩
  · rfl
  · exact exec_mem_of_base (s := s.fetch) base he

/-- Settles O42: every step keeps the configuration and, where it is the base one, memory. -/
theorem baseConfigurationMemoryConstant : Obligations.BaseConfigurationMemoryConstant := by
  unfold Obligations.BaseConfigurationMemoryConstant
  intro n s t base h
  refine (RunsTo.keeps (P := fun u => u.cfg.fullIsa = false ∧ u.mem = s.mem) ?_ ⟨base, rfl⟩ h).2
  rintro u v ⟨hu, mem⟩ hv
  exact ⟨(step_cfg hv).symm ▸ hu, (step_mem_of_base hu hv).trans mem⟩

/-! ### COND leaves NONE for good -/

theorem exec_cond_ne_none {i : Instr} {s t : State} (hs : s.cond ≠ .none) (h : exec i s = .next t) :
    t.cond ≠ .none := by
  cases exec_effect h with
  | unsupported | address | jump | stay | store | link | haltTrap => exact hs
  | result _ v => exact condOf_ne_none v

theorem step_cond_ne_none {s t : State} (hs : s.cond ≠ .none) (h : step s = .next t) : t.cond ≠ .none := by
  rcases step_cases h with ⟨-, rfl⟩ | ⟨-, he⟩
  · exact hs
  · exact exec_cond_ne_none (s := s.fetch) hs he

/-- Settles O17: a flag written is never NONE, so no step brings NONE back. -/
theorem condNeverReturnsToNone : Obligations.CondNeverReturnsToNone := by
  unfold Obligations.CondNeverReturnsToNone
  exact fun _ _ _ hs h => RunsTo.keeps step_cond_ne_none hs h

/-! ### The invariant -/

/-- The invariant holds after reset. -/
theorem State.resetWith_inv (c : Config) : (State.resetWith c).Inv where
  memWf := State.resetWith_mem_wf c
  causeNone := by simp
  trapFull := by simp
  fresh := by simp
  condNone := by
    rw [State.resetWith_cond, State.resetWith_cfg]
    cases c.condReset <;> simp [condAtReset]

/-- Settles O46. Reset's memory is empty, its cause NONE, its COND the parameter's. -/
theorem invHoldsAfterReset : Obligations.InvHoldsAfterReset := by
  unfold Obligations.InvHoldsAfterReset
  exact State.resetWith_inv

/-- Once a step was taken the clause about the state before the first step says nothing. -/
theorem State.Inv.fetch {s : State} (inv : s.Inv) : s.fetch.Inv :=
  { inv with fresh := fun h => by simp at h }

theorem State.Inv.memWrite {s : State} (inv : s.Inv) (a v : Word) : (s.memWrite a v).Inv :=
  { inv with memWf := Memory.writeWord_wf inv.memWf a v }

theorem State.Inv.setReg {s : State} (inv : s.Inv) (r : Reg) (v : Word) : (s.setReg r v).Inv :=
  { inv with }

section
variable {s : State} (inv : s.Inv) (started : s.started = true)
include inv started

/-- A move of PC after the first step keeps the invariant. -/
theorem State.Inv.setPc (a : Word) : (s.setPc a).Inv :=
  { inv with fresh := fun h => absurd (started.symm.trans h) (by decide) }

theorem State.Inv.writeResult (d : Reg) (v : Word) : (s.writeResult d v).Inv :=
  { inv with
    fresh := fun h => absurd (started.symm.trans h) (by decide)
    condNone := fun h => absurd h (condOf_ne_none v) }

/-- A halt keeps the invariant if its cause is one that HALTED may have. -/
theorem State.Inv.halt {cause : HaltCause} (named : cause ≠ .none)
    (trap : cause = .haltTrap → s.cfg.fullIsa = true) : (s.halt cause).Inv :=
  { inv with
    causeNone := by simpa using named
    trapFull := trap
    fresh := fun h => absurd (started.symm.trans h) (by decide) }

theorem exec_keeps_inv {i : Instr} {t : State} (h : exec i s = .next t) : t.Inv := by
  cases exec_effect h with
  | unsupported => exact inv.halt started (by decide) (by simp)
  | result d v => exact inv.writeResult started d v
  | address d v => exact inv.setReg d v
  | jump a => exact inv.setPc started a
  | stay => exact inv
  | store a v => exact inv.memWrite a v
  | link a => exact (inv.setPc started a).setReg .r7 s.pc
  | haltTrap full => exact (inv.setReg .r7 s.pc).halt started (by decide) fun _ => full

end

theorem step_keeps_inv {s t : State} (inv : s.Inv) (h : step s = .next t) : t.Inv := by
  rcases step_cases h with ⟨-, rfl⟩ | ⟨-, he⟩
  · exact inv
  · exact exec_keeps_inv inv.fetch s.fetch_started he

/-- Settles O47: the fetch keeps the invariant, and so does each effect an instruction can have. -/
theorem stepKeepsInv : Obligations.StepKeepsInv := by
  unfold Obligations.StepKeepsInv
  exact fun _ _ => step_keeps_inv

theorem request_keeps_inv {q : Request} {s t : State} (inv : s.Inv) (h : request q s = some t) : t.Inv := by
  rcases request_cases h with ⟨-, rfl⟩ | ⟨o, -, rfl⟩ | ⟨-, -, ht⟩ | ⟨a, v, -, -, rfl⟩ | ⟨r, v, -, -, rfl⟩ |
    ⟨-, -, -, rfl⟩
  · exact State.resetWith_inv s.cfg
  · exact State.resetWith_inv { s.cfg with origin := o }
  · exact step_keeps_inv inv ht
  · exact inv.memWrite a v
  · exact inv.setReg r v
  · exact inv

/-- Settles O48: a reset establishes the invariant, a step or a host access keeps it. -/
theorem acceptedRequestsKeepInv : Obligations.AcceptedRequestsKeepInv := by
  unfold Obligations.AcceptedRequestsKeepInv
  exact fun _ _ _ => request_keeps_inv

/-- Settles O49, by induction on how the state was reached. -/
theorem reachableStatesMeetInv : Obligations.ReachableStatesMeetInv := by
  unfold Obligations.ReachableStatesMeetInv
  intro s reached
  induction reached with
  | reset c => exact State.resetWith_inv c
  | request q s t _ accepted inv => exact request_keeps_inv inv accepted

/-! ### HALTED -/

theorem request_step_iff (s : State) : (∃ t, request .step s = some t) ↔ s.runState ≠ .halted := by
  cases hr : s.runState with
  | halted => simp [request_step_of_halted hr]
  | running =>
    obtain ⟨t, ht⟩ := step_completes s
    simp [request_step_of_running hr ht]

/-- Settles O41: by what an accepted request can do, a step being refused in HALTED. -/
theorem haltedIsLeftOnlyByReset : Obligations.HaltedIsLeftOnlyByReset := by
  unfold Obligations.HaltedIsLeftOnlyByReset
  refine ⟨request_step_iff, fun s halted => ⟨RunsTo.of_halted halted, fun q t h => ?_⟩⟩
  rcases request_cases h with ⟨hq, -⟩ | ⟨o, hq, -⟩ | ⟨-, running, -⟩ | ⟨a, v, hq, -, rfl⟩ | ⟨r, v, hq, -, rfl⟩ |
    ⟨p, hq, -, rfl⟩
  · exact .inl (.inl hq)
  · exact .inl (.inr ⟨o, hq⟩)
  · exact absurd (running.symm.trans halted) (by decide)
  · exact .inr ⟨halted, rfl, rfl, rfl, rfl, .inl ⟨a, v, hq, rfl⟩⟩
  · exact .inr ⟨halted, rfl, rfl, rfl, rfl, .inr (.inl ⟨r, v, hq, rfl⟩)⟩
  · exact .inr ⟨halted, rfl, rfl, rfl, rfl, .inr (.inr ⟨p, hq, rfl⟩)⟩

/-! ### No-ops for ever -/

/-- The zero word is a BR that tests no condition: its step is its fetch. -/
theorem step_of_zero_word {s : State} (running : s.runState = .running)
    (map : s.cfg.opcodeMap = conventionalOpcodes) (zero : s.memRead s.pc = 0) : step s = .next s.fetch := by
  have noop : decode conventionalOpcodes 0 = .br false false false 0 := by decide
  have untaken : ¬branchTaken false false false s.fetch.cond = true := by simp [branchTaken_iff]
  rw [step_of_running running, map, zero, noop, exec_br, if_neg untaken]
  rfl

/-- Settles O44, by induction on the number of steps. -/
theorem zeroMemoryRunsForever : Obligations.ZeroMemoryRunsForever := by
  unfold Obligations.ZeroMemoryRunsForever
  intro n
  induction n with
  | zero =>
    intro s running _ _
    exact ⟨s, rfl, running, by simp, rfl, rfl, fun _ => rfl, fun _ => rfl⟩
  | succ n ih =>
    intro s running map zero
    obtain ⟨t, rest, running', pc, cond, cause, regs, mem⟩ := ih s.fetch running map zero
    refine ⟨t, ⟨s.fetch, step_of_zero_word running map (zero s.pc), rest⟩, running', ?_, cond, cause, regs, mem⟩
    rw [pc]
    apply BitVec.eq_of_toNat_eq
    simp
    omega

end Sys2Proof.Machine
end

section
/-! Memory as the host sees it (rules R23, R33, R36, R140 to R142): canonical lists that read alike are equal,
what reset, the host's reads and writes do, and where a boot image is placed. -/

namespace Sys2Proof

theorem wordOfBytes_inj {hi lo hi' lo' : Byte} (h : wordOfBytes hi lo = wordOfBytes hi' lo') :
    hi = hi' ∧ lo = lo' := by
  constructor
  · calc hi = (wordOfBytes hi lo).extractLsb' 8 8 := BitVec.extractLsb'_append_eq_left.symm
      _ = hi' := h ▸ BitVec.extractLsb'_append_eq_left
  · calc lo = (wordOfBytes hi lo).extractLsb' 0 8 := BitVec.extractLsb'_append_eq_right.symm
      _ = lo' := h ▸ BitVec.extractLsb'_append_eq_right

namespace Machine

/-! ### Canonical memories -/

theorem Memory.wfFrom_cons {lo k : Nat} {b : Byte} {rest : Memory} :
    Memory.wfFrom lo ((k, b) :: rest) = true ↔
      lo ≤ k ∧ k < Memory.size ∧ b ≠ Memory.unlisted ∧ Memory.wfFrom (k + 1) rest = true := by
  simp only [Memory.wfFrom, Bool.and_eq_true, decide_eq_true_eq, and_assoc]

theorem Memory.readByte_head (k : Nat) (b : Byte) (rest : Memory) :
    Memory.readByte ((k, b) :: rest) k = b := if_pos rfl

theorem Memory.readByte_tail {k a : Nat} (h : k ≠ a) (b : Byte) (rest : Memory) :
    Memory.readByte ((k, b) :: rest) a = rest.readByte a := if_neg h

/-- No canonical list names a key from `Memory.size` up. -/
theorem Memory.readByte_above {lo a : Nat} {m : Memory} (h : Memory.wfFrom lo m = true) (ha : Memory.size ≤ a) :
    m.readByte a = Memory.unlisted := by
  induction m generalizing lo with
  | nil => rfl
  | cons c rest ih =>
    obtain ⟨-, below, -, hrest⟩ := Memory.wfFrom_cons.mp h
    rw [Memory.readByte_tail (by omega)]
    exact ih hrest

/-- A canonical list holds no entry equal to what an unlisted key reads as. -/
theorem Memory.readByte_head_ne_unlisted {lo k : Nat} {b : Byte} {rest : Memory}
    (h : Memory.wfFrom lo ((k, b) :: rest) = true) :
    Memory.readByte ((k, b) :: rest) k ≠ Memory.unlisted := by
  obtain ⟨-, -, hb, -⟩ := Memory.wfFrom_cons.mp h
  rwa [Memory.readByte_head]

/-- Canonical lists that read alike have the same first key. -/
theorem Memory.head_le {lo lo' k k' : Nat} {b b' : Byte} {rest rest' : Memory}
    (h : Memory.wfFrom lo ((k, b) :: rest) = true) (h' : Memory.wfFrom lo' ((k', b') :: rest') = true)
    (alike : ∀ a, Memory.readByte ((k, b) :: rest) a = Memory.readByte ((k', b') :: rest') a) : k' ≤ k := by
  obtain ⟨-, below, nonzero, hrest⟩ := Memory.wfFrom_cons.mp h'
  refine Nat.le_of_not_lt fun lt => Memory.readByte_head_ne_unlisted h ?_
  rw [alike]
  exact Memory.readByte_below (lo := k') (Memory.wfFrom_cons.mpr ⟨Nat.le_refl k', below, nonzero, hrest⟩) lt

theorem Memory.eq_of_readByte {lo : Nat} {m m' : Memory} (h : Memory.wfFrom lo m = true)
    (h' : Memory.wfFrom lo m' = true) (alike : ∀ a, m.readByte a = m'.readByte a) : m = m' := by
  induction m generalizing lo m' with
  | nil =>
    cases m' with
    | nil => rfl
    | cons c rest => exact absurd (alike c.1).symm (Memory.readByte_head_ne_unlisted h')
  | cons c rest ih =>
    obtain ⟨k, b⟩ := c
    cases m' with
    | nil => exact absurd (alike k) (Memory.readByte_head_ne_unlisted h)
    | cons c' rest' =>
      obtain ⟨k', b'⟩ := c'
      obtain rfl : k = k' := Nat.le_antisymm (Memory.head_le h' h fun a => (alike a).symm) (Memory.head_le h h' alike)
      obtain rfl : b = b' := by simpa only [Memory.readByte_head] using alike k
      obtain ⟨-, -, -, hrest⟩ := Memory.wfFrom_cons.mp h
      obtain ⟨-, -, -, hrest'⟩ := Memory.wfFrom_cons.mp h'
      refine congrArg _ (ih hrest hrest' fun a => ?_)
      by_cases ha : k = a
      · rw [← ha, Memory.readByte_below hrest (Nat.lt_succ_self k),
          Memory.readByte_below hrest' (Nat.lt_succ_self k)]
      · have alike_a := alike a
        rwa [Memory.readByte_tail ha, Memory.readByte_tail ha] at alike_a

/-- Every key below `Memory.size` is the high or the low byte of a word. -/
theorem Memory.readByte_of_readWord {m m' : Memory} (alike : ∀ a, m.readWord a = m'.readWord a) {k : Nat}
    (hk : k < Memory.size) : m.readByte k = m'.readByte k := by
  have half : k / 2 < 2 ^ 16 := by simp only [Memory.size] at hk; omega
  obtain ⟨high, low⟩ := wordOfBytes_inj (alike (BitVec.ofNat 16 (k / 2)))
  have key : Memory.key (BitVec.ofNat 16 (k / 2)) = 2 * (k / 2) := by
    rw [Memory.key, BitVec.toNat_ofNat, Nat.mod_eq_of_lt half]
  rw [key] at high low
  rcases Nat.mod_two_eq_zero_or_one k with even | odd
  · rwa [show 2 * (k / 2) = k by omega] at high
  · rwa [show 2 * (k / 2) + 1 = k by omega] at low

theorem Memory.eq_of_readWord {m m' : Memory} (h : m.wf = true) (h' : m'.wf = true)
    (alike : ∀ a, m.readWord a = m'.readWord a) : m = m' := by
  refine Memory.eq_of_readByte h h' fun k => ?_
  by_cases hk : k < Memory.size
  · exact Memory.readByte_of_readWord alike hk
  · rw [Memory.readByte_above h (Nat.le_of_not_lt hk), Memory.readByte_above h' (Nat.le_of_not_lt hk)]

/-- Settles O45: equal words have equal bytes, and those determine a canonical list entry by entry. -/
theorem canonicalMemoriesWithEqualWordsAreEqual : Obligations.CanonicalMemoriesWithEqualWordsAreEqual := by
  unfold Obligations.CanonicalMemoriesWithEqualWordsAreEqual
  exact fun _ _ => Memory.eq_of_readWord

/-! ### Reset -/

/-- Settles O50: a reset is `State.resetWith` of the machine's own parameters. -/
theorem resetGivesEveryResetValue : Obligations.ResetGivesEveryResetValue := by
  unfold Obligations.ResetGivesEveryResetValue
  refine ⟨fun s => ⟨State.resetWith s.cfg, rfl, State.resetWith_reg s.cfg, State.resetWith_memRead s.cfg, rfl,
    fun none => ?_, fun zro => ?_, rfl, rfl, rfl, rfl, rfl⟩, rfl, rfl, rfl⟩
  · rw [State.resetWith_cond, none, condAtReset]
  · rw [State.resetWith_cond, zro, condAtReset]

/-! ### The host access port -/

theorem State.hostPortOpen_eq_false {s : State} (stepped : s.started = true) (running : s.runState = .running) :
    s.hostPortOpen = false := by
  simp [State.hostPortOpen, stepped, running]

/-- Settles O51: an open port takes the write, which is a store of one word or a write of one register. -/
theorem hostWritesOnlyWhenNotStepping : Obligations.HostWritesOnlyWhenNotStepping := by
  unfold Obligations.HostWritesOnlyWhenNotStepping
  refine ⟨fun s a v wf => ⟨fun stopped => ?_, fun stepped running => ?_⟩,
    fun s r v => ⟨fun stopped => ?_, fun stepped running => ?_⟩⟩
  · exact ⟨_, if_pos (State.hostPortOpen_iff.mpr stopped), State.memWrite_storesWord wf a v⟩
  · rw [request, State.hostPortOpen_eq_false stepped running]
    rfl
  · exact ⟨_, if_pos (State.hostPortOpen_iff.mpr stopped), s.setReg_reg r v, rfl, rfl,
      ⟨rfl, rfl, rfl, rfl, rfl⟩, fun _ => rfl⟩
  · rw [request, State.hostPortOpen_eq_false stepped running]
    rfl

theorem State.hostRead_of_open {s : State} (stopped : s.started = false ∨ s.runState = .halted) (q : HostItem) :
    s.hostRead q = some (s.item q) :=
  State.hostRead_eq_some.mpr ⟨State.hostPortOpen_iff.mpr stopped, rfl⟩

/-- Settles O52: a read answers the item's value where the port is open, and nothing where it is closed. -/
theorem hostReadsAllStateOnlyWhenNotStepping : Obligations.HostReadsAllStateOnlyWhenNotStepping := by
  unfold Obligations.HostReadsAllStateOnlyWhenNotStepping
  constructor
  · intro s stopped
    have answers := State.hostRead_of_open stopped
    exact ⟨fun r => answers (.reg r), fun a => answers (.word a), answers .pc, answers .ir, answers .cond,
      answers .runState, answers .haltCause, fun q => by rw [request, answers q]; rfl⟩
  · intro s q stepped running
    have closed : s.hostRead q = none := by
      rw [State.hostRead, State.hostPortOpen_eq_false stepped running]
      rfl
    exact ⟨closed, by rw [request, closed]; rfl⟩

/-- States that hold the same in every readable piece, with canonical memories, differ in the first-step mark and
the parameters alone. -/
theorem State.eq_of_item {s t : State} (hs : s.mem.wf = true) (ht : t.mem.wf = true)
    (h : ∀ q, s.item q = t.item q) : t = { s with started := t.started, cfg := t.cfg } := by
  have regs : s.regs = t.regs := RegFile.ext_of_get fun r => HostValue.word.inj (h (.reg r))
  have mem : s.mem = t.mem := Memory.eq_of_readWord hs ht fun a => HostValue.word.inj (h (.word a))
  have pc : s.pc = t.pc := HostValue.word.inj (h .pc)
  have ir : s.ir = t.ir := HostValue.word.inj (h .ir)
  have cond : s.cond = t.cond := HostValue.cond.inj (h .cond)
  have runState : s.runState = t.runState := HostValue.runState.inj (h .runState)
  have haltCause : s.haltCause = t.haltCause := HostValue.haltCause.inj (h .haltCause)
  rw [regs, mem, pc, ir, cond, runState, haltCause]

/-- Settles O53: the second port is open too, since its reads are answered. -/
theorem hostReadsDetermineTheState : Obligations.HostReadsDetermineTheState := by
  unfold Obligations.HostReadsDetermineTheState
  intro s t hs ht stopped alike
  refine State.eq_of_item hs ht fun q => ?_
  exact (State.hostRead_eq_some.mp ((alike q).symm.trans (State.hostRead_of_open stopped q))).2

/-! ### The boot image -/

/-- The memory with words written from an address up, wrapping: what the loader's writes leave (rule R141). -/
def Memory.writeWords : Memory → Word → List Word → Memory
  | m, _, [] => m
  | m, a, w :: rest => Memory.writeWords (m.writeWord a w) (a + 1) rest

/-- Before the first step every write of a load is accepted. -/
theorem requests_loadWords {s : State} (fresh : s.started = false) (a : Word) (ws : List Word) :
    requests (loadWords a ws) s = some { s with mem := s.mem.writeWords a ws } := by
  induction ws generalizing s a with
  | nil => rfl
  | cons w rest ih =>
    have accepted : request (.writeMem a w) s = some (s.memWrite a w) :=
      if_pos (State.hostPortOpen_iff.mpr (.inl fresh))
    rw [loadWords, requests, accepted]
    exact ih (s := s.memWrite a w) fresh (a + 1)

/-- Position `k + 1` from an address is position `k` from the next. -/
theorem add_ofNat_succ (a : Word) (k : Nat) : a + BitVec.ofNat 16 (k + 1) = a + 1 + BitVec.ofNat 16 k := by
  rw [Nat.add_comm, BitVec.ofNat_add, BitVec.add_assoc]
  rfl

/-- Fewer than 2^16 positions up, no address comes round to the first. -/
theorem self_ne_add_succ {a : Word} {k : Nat} (hk : k + 1 < 65536) : a ≠ a + 1 + BitVec.ofNat 16 k := by
  bv_omega

/-- A word outside the load reads as before. -/
theorem Memory.readWord_writeWords_of_ne {m : Memory} (wf : m.wf = true) {a b : Word} {ws : List Word}
    (outside : ∀ k < ws.length, b ≠ a + BitVec.ofNat 16 k) : (m.writeWords a ws).readWord b = m.readWord b := by
  induction ws generalizing m a with
  | nil => rfl
  | cons w rest ih =>
    have first : b ≠ a := by simpa using outside 0 (by simp)
    have later : ∀ k < rest.length, b ≠ a + 1 + BitVec.ofNat 16 k := fun k hk =>
      add_ofNat_succ a k ▸ outside (k + 1) (by simpa using hk)
    rw [Memory.writeWords, ih (Memory.writeWord_wf wf a w) later, Memory.readWord_writeWord wf, if_neg first]

/-- Each loaded word reads back at its position, since no later one comes round to it. -/
theorem Memory.readWord_writeWords {m : Memory} (wf : m.wf = true) {a : Word} {ws : List Word}
    (len : ws.length ≤ 65536) {k : Nat} (hk : k < ws.length) :
    (m.writeWords a ws).readWord (a + BitVec.ofNat 16 k) = ws[k] := by
  induction ws generalizing m a k with
  | nil => cases hk
  | cons w rest ih =>
    have wf' := Memory.writeWord_wf wf a w
    rw [List.length_cons] at len hk
    cases k with
    | zero =>
      have outside : ∀ j < rest.length, a ≠ a + 1 + BitVec.ofNat 16 j := fun j hj => self_ne_add_succ (by omega)
      rw [show a + BitVec.ofNat 16 0 = a from BitVec.add_zero a, Memory.writeWords,
        Memory.readWord_writeWords_of_ne wf' outside, Memory.readWord_writeWord wf, if_pos rfl]
      rfl
    | succ k =>
      rw [add_ofNat_succ]
      exact ih wf' (by omega) (by omega)

/-- Settles O54: the reset leaves a zero memory, and the load places the words in it. -/
theorem bootImageIsPlacedAtItsOrigin : Obligations.BootImageIsPlacedAtItsOrigin := by
  unfold Obligations.BootImageIsPlacedAtItsOrigin
  intro s origin ws len
  have wf : (s.doResetAt origin).mem.wf = true := State.resetWith_mem_wf _
  have boot : requests (bootImage (origin :: ws)) s =
      some { s.doResetAt origin with mem := (s.doResetAt origin).mem.writeWords origin ws } :=
    requests_loadWords (s := s.doResetAt origin) rfl origin ws
  have regs (r : Reg) : (s.doResetAt origin).reg r = 0 := State.resetWith_reg _ r
  have words (a : Word) : (s.doResetAt origin).memRead a = 0 := State.resetWith_memRead _ a
  exact ⟨_, boot, rfl, rfl, rfl, rfl, regs, fun k hk => Memory.readWord_writeWords wf len hk,
    fun a outside => (Memory.readWord_writeWords_of_ne wf outside).trans (words a)⟩

end Machine

end Sys2Proof
end
